-- ==== Sys2Proof/Word.lean ====
section
/-! DEFINITION. The word types of the PMP range decoder (spec/00_scope.md R8, R12). -/

namespace Sys2Proof

/-- A `u32`: a RegionAddress word, a target address, a base or a limit (R8, R12, R32). -/
abbrev Word := BitVec 32

/-- A `u8`: a RegionConfig byte (R8, R21). -/
abbrev Byte := BitVec 8

/-- The largest byte address, 0xFFFFFFFF (R32, R62). -/
abbrev maxAddr : Nat := 0xFFFFFFFF

/-- An entry index 0..63 of the RegionTable (R8, R19). -/
abbrev Index := Fin 64

end Sys2Proof
end

