-- ==== Sys2Proof/Config.lean ====
section
/-! DEFINITION. The open parameters of the block (spec/00_scope.md R9; 93_implementation_defined.md I11, I12).

R9 says that a model takes `EVAL_LATENCY` and `HAS_TRACE` as arguments.  They are one record, held as a field of
`Machine.State` that no step changes, so that every statement about all states is a statement about all values of both. -/

namespace Sys2Proof

/-- The two open parameters of R9. -/
structure Config where
  /-- `EVAL_LATENCY`: clock cycles from a sampled input to its valid result, 0 for a combinational block. -/
  evalLatency : Nat
  /-- `HAS_TRACE`: the trace output of spec/42_trace.md is present. -/
  hasTrace : Bool
  deriving DecidableEq, Repr

/-- The parameters of the state `State.reset`: R104's reference realization (`EVAL_LATENCY = 0`), with the trace
present.  DESIGN CHOICE (notes/assumptions/2.md) for `hasTrace`, which the spec leaves open. -/
def Config.reference : Config := ⟨0, true⟩

end Sys2Proof
end

