-- ==== Sys2Proof/Syntax.lean ====
section
/-! DEFINITION. The abstract syntax: the seven rows of spec/opcode_table.json, the raw values that arrive on the ports
(spec/30_encoding.md R44, R52) and the lines of R54's test notation. -/

namespace Sys2Proof

/-- The addressing mode of a table entry, the field A of its config byte (R21, R46). -/
inductive Mode where
  | off | tor | na4 | napot
  deriving DecidableEq, Repr

/-- The requested operation (R26). -/
inductive Op where
  | read | write | execute
  deriving DecidableEq, Repr

/-- The fields of a config byte other than the mode (R21, R45). -/
structure Attr where
  r : Bool
  w : Bool
  x : Bool
  /-- bits 7:5, "preserved but not interpreted" (R23) -/
  reserved : BitVec 3
  deriving DecidableEq, Repr

/-- The block's instructions: the four modes, which are "the block's 'instructions'" (spec/40_range_resolver.md), each
with the rest of its config byte and its address word; and the three request operations (spec/41_access_evaluator.md),
each with its target address.  The entry index is no operand: it is the port the entry arrives on, and stands in
`Machine.Scan.index` while the entry is examined. -/
inductive Instr where
  /-- OFF, R57 -/
  | off (p : Attr) (a : Word)
  /-- TOR, R58 -/
  | tor (p : Attr) (a : Word)
  /-- NA4, R59 -/
  | na4 (p : Attr) (a : Word)
  /-- NAPOT, R60 -/
  | napot (p : Attr) (a : Word)
  /-- CHECK.R, R69 -/
  | checkR (t : Word)
  /-- CHECK.W, R70 -/
  | checkW (t : Word)
  /-- CHECK.X, R71 -/
  | checkX (t : Word)
  deriving DecidableEq, Repr

/-- The two kinds of input an encoded value arrives on (R44, R52): `tbl_cfg[i]` with `tbl_addr[i]`, or `req_op` with
`req_addr`. -/
inductive Port where
  | table | request
  deriving DecidableEq, Repr

/-- An encoded value as the ports carry it (R44, R52).  The ports are parallel and each value arrives whole, so no byte
order arises (R34). -/
inductive PortWord where
  | entry (cfg : Byte) (addr : Word)
  | request (op : BitVec 2) (addr : Word)
  deriving DecidableEq, Repr

/-- The port a value arrives on. -/
def PortWord.port : PortWord → Port
  | .entry _ _ => .table
  | .request _ _ => .request

/-- One line of R54's notation with its numbers as written, not yet checked against any width: `entry <i> cfg addr`, or
`check op addr` with the operation as its `req_op` code. -/
inductive Line where
  | entry (i cfg addr : Nat)
  | check (op addr : Nat)
  deriving DecidableEq, Repr

end Sys2Proof
end

