-- ==== Sys2Proof/WellFormed.lean ====
section
/-! DEFINITION. Well-formedness.

Every term of `Instr` is an instruction the spec gives a meaning: its fields have exactly the widths of the formats of
R44, and "every value of the A field, every R/W/X combination and every address word is a legal encoding with a meaning"
(R53; R22, R24).  What can be ill-formed is what stands before an `Instr`: the value on the request port, whose code
0b11 spells no operation (R50), and the lines of a test program (R54). -/

namespace Sys2Proof

/-- R53: the one illegal encoding is `req_op = 0b11`. -/
def PortWord.wellFormed : PortWord → Bool
  | .entry _ _ => true
  | .request op _ => op != 0b11#2

/-- R54: an index 0..63, an 8-bit config byte, 32-bit addresses, an operation R, W or X. -/
def Line.wellFormed : Line → Bool
  | .entry i cfg addr => decide (i < 64) && decide (cfg < 2 ^ 8) && decide (addr < 2 ^ 32)
  | .check op addr => decide (op < 3) && decide (addr < 2 ^ 32)

/-- The line is an `entry` line. -/
def Line.isEntry : Line → Bool
  | .entry _ _ _ => true
  | .check _ _ => false

/-- R54: "A program is a list of `entry` lines followed by a list of `check` lines". -/
def entriesFirst : List Line → Bool
  | [] => true
  | .entry _ _ _ :: ls => entriesFirst ls
  | .check _ _ :: ls => ls.all fun l => !l.isEntry

/-- The indices the `entry` lines name. -/
def entryIndices (ls : List Line) : List Nat :=
  ls.filterMap fun l => match l with
    | .entry i _ _ => some i
    | .check _ _ => none

/-- A well-formed test program (R54).  That no entry is named twice is a DESIGN CHOICE (notes/assumptions/9.md): R54
does not say what a second `entry` line for the same index would mean. -/
def programWellFormed (ls : List Line) : Bool :=
  ls.all Line.wellFormed && entriesFirst ls && decide (entryIndices ls).Nodup

end Sys2Proof
end

