-- ==== Sys2Proof/Decode.lean ====
section
/-! DEFINITION. Decoding and encoding (spec/30_encoding.md R44 to R54, spec/opcode_table.json).

The block decodes two ports, and the same small number means different things on each: 0x01 on `tbl_cfg` is an Off
entry with R set, 0b01 on `req_op` is Write.  So the decoder takes a `PortWord`, which says the port. -/

namespace Sys2Proof

/-! ### The config byte (R45, R46) -/

/-- The mode a value of the field A selects (R46). -/
def Mode.ofCode (c : BitVec 2) : Mode :=
  if c = 0b00#2 then .off else if c = 0b01#2 then .tor else if c = 0b10#2 then .na4 else .napot

/-- The value of the field A that selects a mode (R46). -/
def Mode.code : Mode → BitVec 2
  | .off => 0b00#2
  | .tor => 0b01#2
  | .na4 => 0b10#2
  | .napot => 0b11#2

/-- `mode(i)`: the mode `cfg[i][4:3]` selects (R13, R45, R46). -/
def modeOf (cfg : Byte) : Mode := Mode.ofCode (cfg.extractLsb' 3 2)

/-- The fields of a config byte beside the mode (R45): R bit 0, W bit 1, X bit 2, reserved bits 7:5. -/
def attrOf (cfg : Byte) : Attr :=
  ⟨cfg.getLsbD 0, cfg.getLsbD 1, cfg.getLsbD 2, cfg.extractLsb' 5 3⟩

/-- The config byte of a mode and the other fields, laid out by R45: reserved, A, X, W, R from bit 7 down. -/
def cfgByte (m : Mode) (p : Attr) : Byte :=
  p.reserved ++ m.code ++ BitVec.ofBool p.x ++ BitVec.ofBool p.w ++ BitVec.ofBool p.r

/-! ### The request (R49, R50) -/

/-- The operation a value of `req_op` names; 0b11 names none (R49, R50). -/
def Op.ofCode (c : BitVec 2) : Option Op :=
  if c = 0b00#2 then some .read else if c = 0b01#2 then some .write
  else if c = 0b10#2 then some .execute else none

/-- `code(op)`: the operation's `req_op` value, which is also the bit position of its permission bit (R48, R49). -/
def Op.code : Op → BitVec 2
  | .read => 0b00#2
  | .write => 0b01#2
  | .execute => 0b10#2

/-! ### Instructions -/

/-- Why a value does not decode. -/
inductive DecodeError where
  /-- `req_op = 0b11` "spells no operation" (R50) -/
  | reservedOperation
  deriving DecidableEq, Repr

/-- The table entry's instruction: its mode with its other fields and its address word (R45 to R47). -/
def decodeEntry (cfg : Byte) (addr : Word) : Instr :=
  match modeOf cfg with
  | .off => .off (attrOf cfg) addr
  | .tor => .tor (attrOf cfg) addr
  | .na4 => .na4 (attrOf cfg) addr
  | .napot => .napot (attrOf cfg) addr

/-- The instruction that requests an operation at a target address (R49). -/
def requestInstr (op : Op) (t : Word) : Instr :=
  match op with
  | .read => .checkR t
  | .write => .checkW t
  | .execute => .checkX t

/-- The decoder, total on every value of either port; it rejects `req_op = 0b11` by name (R50, R53). -/
def decode : PortWord → Except DecodeError Instr
  | .entry cfg addr => .ok (decodeEntry cfg addr)
  | .request op addr =>
    match Op.ofCode op with
    | some o => .ok (requestInstr o addr)
    | none => .error .reservedOperation

/-- The encoder: the port and the value on it that spell an instruction (R45, R46, R49). -/
def encode : Instr → PortWord
  | .off p a => .entry (cfgByte .off p) a
  | .tor p a => .entry (cfgByte .tor p) a
  | .na4 p a => .entry (cfgByte .na4 p) a
  | .napot p a => .entry (cfgByte .napot p) a
  | .checkR t => .request Op.read.code t
  | .checkW t => .request Op.write.code t
  | .checkX t => .request Op.execute.code t

/-! ### The opcode table -/

/-- A row of spec/opcode_table.json: the port of its format, its mask and its match. -/
structure OpcodeRow where
  mnemonic : String
  port : Port
  mask : Nat
  pattern : Nat
  deriving DecidableEq, Repr

/-- spec/opcode_table.json, row by row (R46's masks and matches; R49's codes). -/
def opcodeTable : List OpcodeRow :=
  [⟨"OFF", .table, 0x18, 0x00⟩, ⟨"TOR", .table, 0x18, 0x08⟩, ⟨"NA4", .table, 0x18, 0x10⟩,
   ⟨"NAPOT", .table, 0x18, 0x18⟩, ⟨"CHECK.R", .request, 0x3, 0x0⟩, ⟨"CHECK.W", .request, 0x3, 0x1⟩,
   ⟨"CHECK.X", .request, 0x3, 0x2⟩]

/-- The row's position in `opcodeTable`. -/
def Instr.rowIndex : Instr → Fin 7
  | .off _ _ => 0
  | .tor _ _ => 1
  | .na4 _ _ => 2
  | .napot _ _ => 3
  | .checkR _ => 4
  | .checkW _ => 5
  | .checkX _ => 6

/-- The instruction's row of `opcodeTable`. -/
def Instr.row (i : Instr) : OpcodeRow := opcodeTable[i.rowIndex]

/-- The value on the port that a row's mask is applied to: `tbl_cfg[i]`, or `req_op`. -/
def PortWord.opcodeBits : PortWord → Nat
  | .entry cfg _ => cfg.toNat
  | .request op _ => op.toNat

/-! ### A bare table word

The opcode table numbers bits inside one format and does not say the port beside the number, so a bare word can be a
word of both formats.  `tablePort` settles it (DESIGN CHOICE, notes/assumptions/8.md).  A word of fewer than the 5 bits
that the mask 0x18 needs, or of more than the 8 bits of format CFG, is a request (format REQ has 2 + 32 bits, R44), and
so is a number that is exactly the pattern of a request row and of no table row (0x01, 0x02).  Every other one is a config
byte.  In particular the 8-bit word 0x00, which is OFF and CHECK.R alike, is read as OFF. -/

/-- The port a bare word of the opcode table is taken to arrive on. -/
def tablePort (nbits w : Nat) : Port :=
  if nbits < 5 || 8 < nbits || w == 0x1 || w == 0x2 then .request else .table

/-- A bare word of the opcode table as a port carries it.  CFG: bits 7:0 are `tbl_cfg`, and `tbl_addr`
is the bits above them.  REQ: bits 1:0 are `req_op`, bits 33:2 `req_addr`. -/
def tableWord (nbits w : Nat) : PortWord :=
  match tablePort nbits w with
  | .table => .entry (BitVec.ofNat 8 w) (BitVec.ofNat 32 (w / 2 ^ 8))
  | .request => .request (BitVec.ofNat 2 w) (BitVec.ofNat 32 (w / 2 ^ 2))

/-- The instruction the decoder reads from a bare word of the opcode table. -/
def decodeTableWord (nbits w : Nat) : Option Instr :=
  match decode (tableWord nbits w) with
  | .ok i => some i
  | .error _ => none

end Sys2Proof
end

