-- ==== Sys2Proof/Machine/State.lean ====
section
/-! DEFINITION. The state of the machine: every piece of state of spec/10_state.md R30, the ports of
spec/30_encoding.md R52, the results in flight of spec/70_reset_and_hazards.md R104, and the parameters of R9. -/

namespace Sys2Proof.Machine

/-- Why a step ends in a fault.  There is no reason: "The block raises no exception and takes no trap" (R83), and "A
model of the block has no hang and no stuck state for any table and any request in its domain" (R103).  `Fault`,
`FaultUnmapped` and `RangeOverflow` are results (`AccessResult`), not machine faults. -/
inductive Fault where
  deriving DecidableEq, Repr

/-- Why a step is refused. -/
inductive Refusal where
  /-- An instruction with no meaning yet.  Raised by no arm of `exec` in this model.  Safe. -/
  | notModelled (mnemonic : String)
  /-- `req_op = 0b11` was sampled: "A model refuses a request with this code" (R50, I7).  Raised by `fetchRequest`.
  Safe: the block may answer anything. -/
  | reservedOperation
  /-- The host changes an input in the window in which R100 forbids it: "a model refuses such a run" (R100, I6).  Seen in
  the input `stable`, and inside an evaluation at latency 0 also in inputs that differ from the evaluation's snapshot.
  Raised by `fetchRequest` and `fetchEntry`.  Safe: the block may answer anything. -/
  | inputsChanged
  deriving DecidableEq, Repr

/-- A RegionTable entry: the pair `(cfg[i], addr[i])` (R19). -/
structure Entry where
  cfg : Byte
  addr : Word
  deriving DecidableEq, Repr

/-- The RegionTable: exactly 64 entries, by its type (R19, R88). -/
abbrev Table := Vector Entry 64

/-- `cfg[i]` (R13, R21). -/
def Table.cfg (T : Table) (i : Index) : Byte := T[i].cfg

/-- `addr[i]` (R13, R24). -/
def Table.addr (T : Table) (i : Index) : Word := T[i].addr

/-- The table whose entries are all `cfg=0x00 addr=0x00000000` (R54, R97). -/
def Table.zero : Table := Vector.replicate 64 ⟨0, 0⟩

/-- The AccessRequest `q = (t, op)` (R26). -/
structure Request where
  t : Word
  op : Op
  deriving DecidableEq, Repr

/-- The AccessResult (R27). -/
inductive AccessResult where
  | granted (i : Index)
  | fault (i : Index)
  | faultUnmapped
  | rangeOverflow (i : Index)
  deriving DecidableEq, Repr

/-- A trace record (R77). -/
structure TraceRecord where
  index : Index
  mode : Mode
  configBits : Byte
  base : Word
  limit : Word
  matched : Bool
  deriving DecidableEq, Repr

/-- The outputs for one sample: the result, and the trace when the block has that output (R28, R30, R52).
The wires `res_kind`, `res_index`, `tr_valid` and the others are views of it (Machine/Ports.lean). -/
structure Output where
  result : AccessResult
  trace : Option (List TraceRecord)
  deriving DecidableEq, Repr

/-- What the host drives (R30, R52). -/
structure Inputs where
  /-- `tbl_cfg[0..63]`, `tbl_addr[0..63]` -/
  table : Table
  /-- `req_addr` -/
  reqAddr : Word
  /-- `req_op`, all four codes (R49, R50) -/
  reqOp : BitVec 2
  /-- `req_valid`; a port only when `EVAL_LATENCY > 0` (R52), and not read at latency 0 -/
  reqValid : Bool
  /-- The model's own, no wire: the host keeps the duty of R100, that is, changes no input in the window in which R100
  forbids it (at latency 0 while it reads the answer, at latency > 0 at the sampling edge).  notes/assumptions/5.md. -/
  stable : Bool
  deriving DecidableEq, Repr

/-- All inputs driven to zero, and stable. -/
def Inputs.zero : Inputs := ⟨Table.zero, 0, 0, false, true⟩

/-- The transient state inside one evaluation (R29): `Scanning(index)` when `active`, with the snapshot of the table and
the request the evaluation was given (R39) and the records emitted so far, in order (R65). -/
structure Scan where
  active : Bool
  index : Index
  req : Request
  table : Table
  trace : List TraceRecord
  deriving DecidableEq, Repr

/-- Between evaluations: no scan, which "does not survive the evaluation" (R29). -/
def Scan.idle : Scan := ⟨false, 0, ⟨0, .read⟩, Table.zero, []⟩

/-- A sample whose answer is not out yet (R104): it is the output `due` clock cycles from now. -/
structure InFlight where
  due : Nat
  output : Output
  deriving DecidableEq, Repr

/-- The machine. -/
structure State where
  /-- the parameters of R9; no step changes them -/
  config : Config
  /-- the input ports, driven by the host; no step changes them (R25) -/
  inputs : Inputs
  /-- the scan of the evaluation in progress (R29) -/
  scan : Scan
  /-- at latency > 0, the samples whose answers are still to come, oldest first (R104) -/
  pipe : List InFlight
  /-- the output of the last evaluation: at latency 0 the answer the last evaluation gave (R65; what the wires carry
  then follows the inputs, `State.portOut`), at latency > 0 what the output ports hold, `none` whenever `res_valid = 0`;
  `none` before the first sample (R96, I10) -/
  out : Option Output
  deriving DecidableEq, Repr

/-- The machine right after power-on, for the parameters of a realization and whatever the host drives: nothing
sampled, so no scan, nothing in flight and no valid output (R96, R97). -/
def State.atReset (c : Config) (ins : Inputs) : State := ⟨c, ins, Scan.idle, [], none⟩

/-- The reset state of the host's interface.  The block has no reset input and gives its inputs no reset value (R96,
R97); the zeros driven here and the parameters are a DESIGN CHOICE (notes/assumptions/1.md and 2.md), and statements
about the machine after reset are made over `State.atReset c ins` for every `c` and `ins`. -/
def State.reset : State := State.atReset Config.reference Inputs.zero

end Sys2Proof.Machine
end

