-- ==== Sys2Proof/Machine/Flags.lean ====
section
/-! DEFINITION. The bits the block tests.  The block has no status flags or condition codes (R18); its one-bit values
are the permission bits of a config byte (R68) and the match test (R67). -/

namespace Sys2Proof.Machine

/-- The permission bit an operation selects, `cfg[i][k]` with `k = code(op)` (R48, R68). -/
def permitted (cfg : Byte) (op : Op) : Bool := cfg.getLsbD op.code.toNat

/-- The match test: `base <= t < limit`, unsigned, the limit excluded (R67). -/
def inRange (base limit t : Word) : Bool := decide (base ≤ t) && decide (t < limit)

/-- The result at a matching entry (R68, R72). -/
def verdict (i : Index) (cfg : Byte) (op : Op) : AccessResult :=
  if permitted cfg op then .granted i else .fault i

end Sys2Proof.Machine
end

