-- ==== Sys2Proof/Machine/Operands.lean ====
section
/-! DEFINITION. Operand assembly of the RangeResolver (spec/30_encoding.md R47, R48; spec/40_range_resolver.md R58 to
R61).  Bounds are a base, always a u32, and the exact limit, a natural number that may pass 32 bits (R12). -/

namespace Sys2Proof.Machine

/-- The loop of R61's pseudocode, with at most `fuel` rounds left. -/
def onesFrom (a : Word) : (fuel c : Nat) → Nat
  | 0, c => c
  | fuel + 1, c => if a.getLsbD c then onesFrom a fuel (c + 1) else c

/-- `ctz1(a)`: the number of consecutive 1 bits of `a` upward from bit 0, 0..32 (R61). -/
def ctz1 (a : Word) : Nat := onesFrom a 32 0

/-- The lower bound of a TOR entry: `(i == 0) ? 0 : addr[i-1]`, whatever the mode of entry i-1 is (R48, R58). -/
def torBase (T : Table) (i : Index) : Word :=
  if i.val = 0 then 0 else T.addr ⟨i.val - 1, by omega⟩

/-- `TorRange(i)` (R58). -/
def torBounds (T : Table) (i : Index) (a : Word) : Word × Nat := (torBase T i, a.toNat)

/-- NA4: `base <- a; limit <- a + 4`, exact, no alignment (R59). -/
def na4Bounds (a : Word) : Word × Nat := (a, a.toNat + 4)

/-- `NapotRange(a)` (R60): the NA4 computation when `a[0] = 0`; else size `2^(ctz1(a)+2)`, the base `a` aligned down to
the size, all exact. -/
def napotBounds (a : Word) : Word × Nat :=
  if a.getLsbD 0 = false then na4Bounds a
  else
    let size := 2 ^ (ctz1 a + 2)
    let base := a.toNat - a.toNat % size
    (BitVec.ofNat 32 base, base + size)

end Sys2Proof.Machine
end

