-- ==== Sys2Proof/Machine/Ops.lean ====
section
/-! DEFINITION. The shared operations: resolving an entry (R55, R62), judging it (R65 to R68), evaluating a request
(R65), and what an evaluation does to the state (R29, R96, R104).

The block reads and writes no memory (R31), has no registers (R16) and takes no exception (R83, R91), so there is no
memory operation, no register operation and no exception entry or return here. -/

namespace Sys2Proof.Machine

/-! ### The RangeResolver -/

/-- The answer of `Resolve(i)` (R55). -/
inductive Resolved where
  | disabled
  | range (base limit : Word)
  | overflow (base : Word) (limit : Nat)
  deriving DecidableEq, Repr

/-- R62: a limit above 0xFFFFFFFF is an overflow, never wrapped and never saturated. -/
def classify (b : Word × Nat) : Resolved :=
  if b.2 ≤ maxAddr then .range b.1 (BitVec.ofNat 32 b.2) else .overflow b.1 b.2

/-- `Resolve(i)` for the table T (R55). -/
def resolve (T : Table) (i : Index) : Resolved :=
  match modeOf (T.cfg i) with
  | .off => .disabled
  | .tor => classify (torBounds T i (T.addr i))
  | .na4 => classify (na4Bounds (T.addr i))
  | .napot => classify (napotBounds (T.addr i))

/-! ### One scan step -/

/-- What the examination of one entry does to the scan (R66): it goes on or it ends with a result, and it may emit a
record. -/
inductive Judgement where
  | pass (record : Option TraceRecord)
  | stop (result : AccessResult) (record : Option TraceRecord)
  deriving DecidableEq, Repr

/-- The record of an entry that resolved to a range (R77). -/
def recordOf (i : Index) (cfg : Byte) (base limit t : Word) : TraceRecord :=
  ⟨i, modeOf cfg, cfg, base, limit, inRange base limit t⟩

/-- The body of R65's loop for an entry with config byte `cfg` that resolved to `r`: skip a disabled entry, end at an
overflow before the match test, else test the match, emit the record, and end at a match (R66, R67, R72, R79, R80). -/
def judge (i : Index) (cfg : Byte) (r : Resolved) (q : Request) : Judgement :=
  match r with
  | .disabled => .pass none
  | .overflow _ _ => .stop (.rangeOverflow i) none
  | .range base limit =>
    let record := recordOf i cfg base limit q.t
    if record.matched then .stop (verdict i cfg q.op) (some record) else .pass (some record)

/-- The judgement on entry i of a table. -/
def judgeEntry (T : Table) (q : Request) (i : Index) : Judgement :=
  judge i (T.cfg i) (resolve T i) q

/-! ### The AccessEvaluator -/

/-- R65's loop over the entries still to examine, with the trace emitted so far. -/
def scanList (T : Table) (q : Request) : List Index → List TraceRecord → AccessResult × List TraceRecord
  | [], tr => (.faultUnmapped, tr)
  | i :: rest, tr =>
    match judgeEntry T q i with
    | .pass record => scanList T q rest (tr ++ record.toList)
    | .stop result record => (result, tr ++ record.toList)

/-- `Evaluate(T, q)`: the result and the trace (R65). -/
def evaluate (T : Table) (q : Request) : AccessResult × List TraceRecord :=
  scanList T q (List.finRange 64) []

/-- The output of a block with the given parameters: "present when `HAS_TRACE`" (R52, R81). -/
def Output.make (c : Config) (r : AccessResult) (tr : List TraceRecord) : Output :=
  ⟨r, if c.hasTrace then some tr else none⟩

/-- The output of a block with the parameters c for one sample. -/
def answer (c : Config) (T : Table) (q : Request) : Output :=
  Output.make c (evaluate T q).1 (evaluate T q).2

/-! ### The outputs in time (R52, R96, R104) -/

/-- The output of a sample taken now: at latency 0 it is on the ports now, at latency L > 0 it is due in L cycles. -/
def State.deliver (s : State) (o : Output) : State :=
  if s.config.evalLatency = 0 then { s with out := some o }
  else { s with pipe := s.pipe ++ [⟨s.config.evalLatency, o⟩] }

/-- One cycle nearer. -/
def InFlight.tick (p : InFlight) : InFlight := { p with due := p.due - 1 }

/-- A clock edge at latency > 0: every answer in flight is one cycle nearer, and the oldest is on the outputs, with
`res_valid = 1`, exactly when it is due (R52, R104). -/
def State.tick (s : State) : State :=
  match s.pipe with
  | [] => { s with out := none }
  | p :: ps =>
    if p.due ≤ 1 then { s with out := some p.output, pipe := ps.map InFlight.tick }
    else { s with out := none, pipe := (p :: ps).map InFlight.tick }

/-! ### The scan, one entry at a time (R29, R66) -/

/-- Append a record to the trace of the evaluation in progress. -/
def State.emit (s : State) (record : Option TraceRecord) : State :=
  { s with scan := { s.scan with trace := s.scan.trace ++ record.toList } }

/-- The evaluation in progress ends with a result: the output is delivered and the scan is over (R29, R72, R73). -/
def State.finish (s : State) (r : AccessResult) : State :=
  { s.deliver (Output.make s.config r s.scan.trace) with scan := Scan.idle }

/-- From `Scanning(i)` to `Scanning(i+1)`, and from `Scanning(63)` to `FaultUnmapped` (R29, R73). -/
def State.advance (s : State) : State :=
  if h : s.scan.index.val < 63 then
    { s with scan := { s.scan with active := true, index := ⟨s.scan.index.val + 1, by omega⟩ } }
  else s.finish .faultUnmapped

/-- One scan step at `Scanning(i)` for an entry with config byte `cfg` that resolved to `r` (R66). -/
def State.scanStep (s : State) (cfg : Byte) (r : Resolved) : State :=
  match judge s.scan.index cfg r s.scan.req with
  | .pass record => (s.emit record).advance
  | .stop result record => (s.emit record).finish result

/-- The evaluation of one sampled request, whole (R65; R39: the table is the one presented with it). -/
def State.check (s : State) (q : Request) : State :=
  s.deliver (answer s.config s.inputs.table q)

/-- The start of an evaluation, `Scanning(0)` with an empty trace (R29, R65). -/
def Scan.start (T : Table) (q : Request) : Scan := ⟨true, 0, q, T, []⟩

/-- `Scanning(0)` of the evaluation of `q` against the table presented (R29, R39). -/
def State.beginScan (s : State) (q : Request) : State :=
  { s with scan := Scan.start s.inputs.table q }

/-- The host's only way to act on the block: it drives the inputs, the table wholesale (R25, R101). -/
def State.present (s : State) (ins : Inputs) : State := { s with inputs := ins }

/-! ### Stability (R39, R100) -/

/-- The table and the request driven now are the snapshot that the evaluation in progress was given (R39). -/
def State.drivesSnapshot (s : State) : Bool :=
  decide (s.inputs.table = s.scan.table) && decide (s.inputs.reqAddr = s.scan.req.t) &&
    decide (s.inputs.reqOp = s.scan.req.op.code)

/-- The inputs are stable, and while an evaluation is in progress they are still those it was given: the table and the
request "must be stable for the whole of an evaluation" (R100). -/
def State.holdsInputs (s : State) : Bool :=
  s.inputs.stable && (!s.scan.active || s.drivesSnapshot)

end Sys2Proof.Machine
end

