-- ==== Sys2Proof/Machine/Evaluator.lean ====
section
/-! DEFINITION. The meanings of CHECK.R, CHECK.W and CHECK.X: the evaluation of the request against the table presented,
as one atomic step (spec/41_access_evaluator.md R69 to R71; spec/92_eei_decisions.md D2; R104). -/

namespace Sys2Proof.Machine

/-- CHECK.R (R69): `Evaluate(T, (t, Read))`. -/
def execCheckR (t : Word) (s : State) : Host.Outcome State Fault Refusal :=
  .next (s.check ⟨t, .read⟩)

/-- CHECK.W (R70): `Evaluate(T, (t, Write))`. -/
def execCheckW (t : Word) (s : State) : Host.Outcome State Fault Refusal :=
  .next (s.check ⟨t, .write⟩)

/-- CHECK.X (R71): `Evaluate(T, (t, Execute))`. -/
def execCheckX (t : Word) (s : State) : Host.Outcome State Fault Refusal :=
  .next (s.check ⟨t, .execute⟩)

end Sys2Proof.Machine
end

