-- ==== Sys2Proof/Machine/Resolver.lean ====
section
/-! DEFINITION. The meanings of OFF, TOR, NA4 and NAPOT: the scan step of R66 at the entry under examination, with the
range the entry's mode gives (spec/40_range_resolver.md R57 to R60). -/

namespace Sys2Proof.Machine

/-- OFF (R57): the entry is disabled and the scan skips it; its address word is not read. -/
def execOff (p : Attr) (_a : Word) (s : State) : Host.Outcome State Fault Refusal :=
  .next (s.scanStep (cfgByte .off p) .disabled)

/-- TOR (R58): `[addr[i-1], a)`, from 0 for entry 0. -/
def execTor (p : Attr) (a : Word) (s : State) : Host.Outcome State Fault Refusal :=
  .next (s.scanStep (cfgByte .tor p) (classify (torBounds s.scan.table s.scan.index a)))

/-- NA4 (R59): `[a, a + 4)`. -/
def execNa4 (p : Attr) (a : Word) (s : State) : Host.Outcome State Fault Refusal :=
  .next (s.scanStep (cfgByte .na4 p) (classify (na4Bounds a)))

/-- NAPOT (R60): base and size from the trailing 1 bits of `a`. -/
def execNapot (p : Attr) (a : Word) (s : State) : Host.Outcome State Fault Refusal :=
  .next (s.scanStep (cfgByte .napot p) (classify (napotBounds a)))

end Sys2Proof.Machine
end

