-- ==== Sys2Proof/Machine/Dispatch.lean ====
section
/-! DEFINITION. One arm per row of spec/opcode_table.json. -/

namespace Sys2Proof.Machine

/-- The meaning of an instruction. -/
def exec (i : Instr) (s : State) : Host.Outcome State Fault Refusal :=
  match i with
  | .off p a => Sys2Proof.Machine.execOff p a s
  | .tor p a => Sys2Proof.Machine.execTor p a s
  | .na4 p a => Sys2Proof.Machine.execNa4 p a s
  | .napot p a => Sys2Proof.Machine.execNapot p a s
  | .checkR t => Sys2Proof.Machine.execCheckR t s
  | .checkW t => Sys2Proof.Machine.execCheckW t s
  | .checkX t => Sys2Proof.Machine.execCheckX t s

end Sys2Proof.Machine
end

