-- ==== Sys2Proof/Machine/Fetch.lean ====
section
/-! DEFINITION. Where the next instruction comes from.  The block fetches nothing from memory and has no program counter
(R17, R31, R42): inside an evaluation the next instruction is the entry under examination, of the snapshot the
evaluation was given (R39, R66); between evaluations it is the request on the ports (R49). -/

namespace Sys2Proof.Machine

/-- The refusal for a value that does not decode (R50). -/
def DecodeError.refusal : DecodeError → Refusal
  | .reservedOperation => .reservedOperation

/-- The decoded value, or the refusal of R50. -/
def decodeOrRefuse (w : PortWord) : Except Refusal Instr :=
  match decode w with
  | .ok i => .ok i
  | .error e => .error (DecodeError.refusal e)

/-- The entry under examination.  At latency 0 the host owes stable inputs for the whole evaluation, so a table or a
request other than the snapshot's is refused; at latency > 0 "A change after a latency L > 0 sample has no effect on
that sample's result" (R100). -/
def fetchEntry (s : State) : Except Refusal Instr :=
  if s.config.evalLatency = 0 && !s.holdsInputs then .error .inputsChanged
  else decodeOrRefuse (.entry (s.scan.table.cfg s.scan.index) (s.scan.table.addr s.scan.index))

/-- The request on the ports, sampled now (R49, R50, R100). -/
def fetchRequest (s : State) : Except Refusal Instr :=
  if s.inputs.stable then decodeOrRefuse (.request s.inputs.reqOp s.inputs.reqAddr)
  else .error .inputsChanged

/-- `s` with the value `w` where the next instruction is fetched: a table entry is driven on `tbl_cfg[0]` and
`tbl_addr[0]`, and the evaluation of the request presented (a Read where the code presented is the reserved one) is at
`Scanning(0)` of that table; a request is driven on `req_op` and `req_addr`, with `req_valid = 1`, and no evaluation is
in progress. -/
def State.withPortWord (s : State) (w : PortWord) : State :=
  match w with
  | .entry cfg addr =>
    let op := (Op.ofCode s.inputs.reqOp).getD .read
    let ins := { s.inputs with table := s.inputs.table.set 0 ⟨cfg, addr⟩, reqOp := op.code, stable := true }
    (s.present ins).beginScan ⟨s.inputs.reqAddr, op⟩
  | .request op addr =>
    { s with
      inputs := { s.inputs with reqOp := op, reqAddr := addr, reqValid := true, stable := true }
      scan := Scan.idle }

end Sys2Proof.Machine
end

