-- ==== Sys2Proof/Machine/Step.lean ====
section
/-! DEFINITION. The step. -/

namespace Sys2Proof.Machine

/-- Run what was fetched. -/
def runFetched (f : Except Refusal Instr) (s : State) : Host.Outcome State Fault Refusal :=
  match f with
  | .ok i => exec i s
  | .error r => .refused r

/-- One step.

* Inside an evaluation, `Scanning(i)`: entry i is examined (R29, R66).  This is no clock cycle: the states inside an
  evaluation are those that CHECK.R, CHECK.W and CHECK.X pass through in their one step (notes/assumptions/3.md).
* Between evaluations at latency 0: the request on the ports is evaluated (R52, R96).
* Between evaluations at latency L > 0, a clock edge: the answers in flight move on, and if `req_valid = 1` the
  request on the ports is sampled and evaluated, its answer due in L cycles (R52, R100, R104). -/
def step (s : State) : Host.Outcome State Fault Refusal :=
  if s.scan.active then runFetched (fetchEntry s) s
  else if s.config.evalLatency = 0 then runFetched (fetchRequest s) s
  else if s.inputs.reqValid then runFetched (fetchRequest s) s.tick
  else .next s.tick

/-- `s` with the opcode-table word `w` where the next instruction is fetched. -/
def State.withFetchWord (s : State) (nbits w : Nat) : State := s.withPortWord (tableWord nbits w)

end Sys2Proof.Machine
end

