-- ==== Sys2Proof/Machine/Closed.lean ====
section
/-! DEFINITION. The closed form of R75, "which a realization may compute for all 64 entries at once with a priority
encoder instead of scanning" (spec/92_eei_decisions.md D25).  A second design of the same function: no step uses it. -/

namespace Sys2Proof.Machine

/-- `en(i)` (R75). -/
def enabled (T : Table) (i : Index) : Bool := modeOf (T.cfg i) != .off

/-- `ovf(i)` (R75). -/
def overflows (T : Table) (i : Index) : Bool :=
  enabled T i && match resolve T i with
    | .overflow _ _ => true
    | _ => false

/-- `hit(i)` (R75). -/
def hits (T : Table) (t : Word) (i : Index) : Bool :=
  enabled T i && match resolve T i with
    | .range b l => inRange b l t
    | _ => false

/-- The record of entry i, when it resolves to a range (R77). -/
def closedRecord (T : Table) (t : Word) (i : Index) : Option TraceRecord :=
  match resolve T i with
  | .range b l => some (recordOf i (T.cfg i) b l t)
  | _ => none

/-- The least i with `stop(i)`, by a priority encoder (R75). -/
def firstStop (T : Table) (t : Word) : Option Index :=
  (List.finRange 64).find? fun i => overflows T i || hits T t i

/-- The result and the trace of R75. -/
def closedForm (T : Table) (q : Request) : AccessResult × List TraceRecord :=
  match firstStop T q.t with
  | none => (.faultUnmapped, (List.finRange 64).filterMap (closedRecord T q.t))
  | some j =>
    (if overflows T j then .rangeOverflow j
      else if permitted (T.cfg j) q.op then .granted j else .fault j,
     ((List.finRange 64).filter fun i => decide (i ≤ j)).filterMap (closedRecord T q.t))

end Sys2Proof.Machine
end

