-- ==== Sys2Proof/Machine/Ports.lean ====
section
/-! DEFINITION. The output wires as views of the state (spec/30_encoding.md R51, R52; spec/42_trace.md R82).  A wire that
carries no information, or that the realization does not have, is `none`: "a model must not read" it (R82, R96). -/

namespace Sys2Proof.Machine

/-- `res_kind` (R51). -/
def AccessResult.kind : AccessResult → BitVec 2
  | .granted _ => 0b00#2
  | .fault _ => 0b01#2
  | .faultUnmapped => 0b10#2
  | .rangeOverflow _ => 0b11#2

/-- `res_index` (R51).  For `FaultUnmapped` it is driven 0 and "carries no information" (R51, I8). -/
def AccessResult.index : AccessResult → BitVec 6
  | .granted i => BitVec.ofNat 6 i.val
  | .fault i => BitVec.ofNat 6 i.val
  | .faultUnmapped => 0
  | .rangeOverflow i => BitVec.ofNat 6 i.val

/-- The entry index on six wires. -/
def indexOfWires (b : BitVec 6) : Index := b.toFin

/-- The result that the values of `res_kind` and `res_index` spell (R51); `res_index` is not read for 0b10. -/
def AccessResult.ofWires (kind : BitVec 2) (index : BitVec 6) : AccessResult :=
  if kind = 0b00#2 then .granted (indexOfWires index)
  else if kind = 0b01#2 then .fault (indexOfWires index)
  else if kind = 0b10#2 then .faultUnmapped
  else .rangeOverflow (indexOfWires index)

/-- What the output wires carry.  At latency 0 the block is combinational: "the outputs are the function of rule R65 of
the inputs present" (R52, R96), with no information for the code 0b11 (R50) or while the host breaks R100.  At latency
L > 0 they carry `out`, the sample of L cycles before. -/
def State.portOut (s : State) : Option Output :=
  if s.config.evalLatency = 0 then
    if s.holdsInputs then
      (Op.ofCode s.inputs.reqOp).map fun op => answer s.config s.inputs.table ⟨s.inputs.reqAddr, op⟩
    else none
  else s.out

/-- `res_valid`; a port only when `EVAL_LATENCY > 0` (R52). -/
def State.resValid (s : State) : Option Bool :=
  if s.config.evalLatency = 0 then none else some s.out.isSome

/-- `res_kind` (R51, R96). -/
def State.resKind (s : State) : Option (BitVec 2) := s.portOut.map fun o => o.result.kind

/-- `res_index` (R51, R96). -/
def State.resIndex (s : State) : Option (BitVec 6) := s.portOut.map fun o => o.result.index

/-- The trace record of entry i, if it has one. -/
def recordAt (tr : List TraceRecord) (i : Index) : Option TraceRecord :=
  tr.find? fun r => decide (r.index = i)

/-- The trace on the outputs: `none` when the block has no trace output or the outputs carry no information. -/
def State.traceOut (s : State) : Option (List TraceRecord) := s.portOut.bind fun o => o.trace

/-- `tr_valid[i]` (R82). -/
def State.trValid (s : State) (i : Index) : Option Bool :=
  s.traceOut.map fun tr => (recordAt tr i).isSome

/-- `tr_match[i]`, 0 when `tr_valid[i] = 0` (R82). -/
def State.trMatch (s : State) (i : Index) : Option Bool :=
  s.traceOut.map fun tr => ((recordAt tr i).map fun r => r.matched).getD false

/-- `tr_base[i]`, no information when `tr_valid[i] = 0` (R82, I9). -/
def State.trBase (s : State) (i : Index) : Option Word :=
  (s.traceOut.bind fun tr => recordAt tr i).map fun r => r.base

/-- `tr_limit[i]`, no information when `tr_valid[i] = 0` (R82, I9). -/
def State.trLimit (s : State) (i : Index) : Option Word :=
  (s.traceOut.bind fun tr => recordAt tr i).map fun r => r.limit

/-- The record of entry i as R82 reads it back from the ports: its index, mode and config bits are i and the table's. -/
def State.wireRecord (s : State) (T : Table) (i : Index) : Option TraceRecord :=
  match s.trValid i, s.trMatch i, s.trBase i, s.trLimit i with
  | some true, some m, some b, some l => some ⟨i, modeOf (T.cfg i), T.cfg i, b, l, m⟩
  | _, _, _, _ => none

/-- "The records in increasing i with `tr_valid[i] = 1`" (R82). -/
def State.wireTrace (s : State) (T : Table) : List TraceRecord :=
  (List.finRange 64).filterMap (s.wireRecord T)

end Sys2Proof.Machine
end

