-- ==== Sys2Proof/Machine/Run.lean ====
section
/-! DEFINITION. A run with a host: before each step the host drives the inputs, all of them anew (R25, R101). -/

namespace Sys2Proof.Machine

/-- One step for each item of `ins`, driven before it; the first fault or refusal ends the run. -/
def runWith : List Inputs → State → Host.Outcome State Fault Refusal
  | [], s => .next s
  | i :: rest, s =>
    match step (s.present i) with
    | .next s' => runWith rest s'
    | .fault f => .fault f
    | .refused r => .refused r

end Sys2Proof.Machine
end

