-- ==== Sys2Proof/Safety.lean ====
section
/-! DEFINITION. The terms in which the statements speak: what an entry does to a request, what a meaning leaves
unchanged, what the host owes the block, and the invariants. -/

namespace Sys2Proof.Machine

/-! ### Entries and requests (R66, R67, R74) -/

/-- Entry i resolves to a range that contains t (R67). -/
def Covers (T : Table) (t : Word) (i : Index) : Prop :=
  ∃ b l, resolve T i = .range b l ∧ b ≤ t ∧ t < l

/-- Entry i overflows (R62). -/
def Overflows (T : Table) (i : Index) : Prop := ∃ b l, resolve T i = .overflow b l

/-- Entry i ends the scan for the target t (R74). -/
def Stops (T : Table) (t : Word) (i : Index) : Prop := Overflows T i ∨ Covers T t i

/-- Entry i is the lowest-indexed one that ends the scan for the target t (R74). -/
def FirstStop (T : Table) (t : Word) (i : Index) : Prop := Stops T t i ∧ ∀ j, j < i → ¬ Stops T t j

/-! ### What a meaning does to the state -/

/-- The state that has answered a sample with `o` and is otherwise `s`: at latency 0 the answer is on the outputs, at
latency L > 0 it is in flight, due in L cycles (R52, R104). -/
def Answered (s : State) (o : Output) (s' : State) : Prop :=
  s'.config = s.config ∧ s'.inputs = s.inputs ∧ s'.scan = s.scan ∧
  (s.config.evalLatency = 0 → s'.out = some o ∧ s'.pipe = s.pipe) ∧
  (s.config.evalLatency ≠ 0 →
    s'.out = s.out ∧ s'.pipe = s.pipe ++ [⟨s.config.evalLatency, o⟩])

/-- The output of a block with parameters c that has the result r and, where it has a trace, the trace tr (R81). -/
def OutputIs (c : Config) (r : AccessResult) (tr : List TraceRecord) (o : Output) : Prop :=
  o.result = r ∧ o.trace = if c.hasTrace then some tr else none

/-- The wires carry the answer to the request q against the table T: `res_kind` and `res_index` its result (R51), and the
trace wires its trace, whose records are read back from them (R82), or nothing in a block without the trace (R52). -/
def WiresShow (s : State) (T : Table) (q : Request) : Prop :=
  s.resKind = some (evaluate T q).1.kind ∧ s.resIndex = some (evaluate T q).1.index ∧
  (s.config.hasTrace = true → s.wireTrace T = (evaluate T q).2 ∧
    ∀ i, (∀ r ∈ (evaluate T q).2, r.index ≠ i) → s.trValid i = some false ∧ s.trMatch i = some false) ∧
  (s.config.hasTrace = false →
    ∀ i, s.trValid i = none ∧ s.trMatch i = none ∧ s.trBase i = none ∧ s.trLimit i = none)

/-- No result or trace wire carries information (R96). -/
def WiresSilent (s : State) : Prop :=
  s.resKind = none ∧ s.resIndex = none ∧
  ∀ i, s.trValid i = none ∧ s.trMatch i = none ∧ s.trBase i = none ∧ s.trLimit i = none

/-- The evaluation in progress in `s` has ended in `s'` with the result r, having emitted the records `new` last: the
output is delivered, the scan is over, nothing else has changed (R29, R72). -/
def ScanEnds (s : State) (r : AccessResult) (new : List TraceRecord) (s' : State) : Prop :=
  s'.scan = Scan.idle ∧
  ∃ o, OutputIs s.config r (s.scan.trace ++ new) o ∧ Answered s o { s' with scan := s.scan }

/-- The scan in `s` has passed its entry, having emitted the records `new`: it is at the next entry and nothing else
has changed, or, after entry 63, the evaluation has ended with `FaultUnmapped` (R29, R73). -/
def ScanPasses (s : State) (new : List TraceRecord) (s' : State) : Prop :=
  if h : s.scan.index.val < 63 then
    s' = { s with scan := { s.scan with
      active := true
      index := ⟨s.scan.index.val + 1, by omega⟩
      trace := s.scan.trace ++ new } }
  else ScanEnds s .faultUnmapped new s'

/-! ### What the host owes (R50, R100) -/

/-- The next step samples the request port (R52). -/
def Samples (s : State) : Prop :=
  s.scan.active = false ∧ (s.config.evalLatency = 0 ∨ s.inputs.reqValid = true)

/-- The next step reads inputs whose stability the host owes: those it samples, and at latency 0 those of an evaluation
in progress (R100). -/
def OwesStability (s : State) : Prop :=
  Samples s ∨ (s.scan.active = true ∧ s.config.evalLatency = 0)

/-- The inputs are stable: none changes at this step, and while an evaluation is in progress the table and the request
are still those it was given (R39, R100). -/
def InputsHeld (s : State) : Prop :=
  s.inputs.stable = true ∧
  (s.scan.active = true → s.inputs.table = s.scan.table ∧ s.inputs.reqAddr = s.scan.req.t ∧
    s.inputs.reqOp = s.scan.req.op.code)

/-- The host keeps its duties at this step: stable inputs (R100), and no request with the code 0b11 (R50). -/
def HostContract (s : State) : Prop :=
  (OwesStability s → InputsHeld s) ∧ (Samples s → s.inputs.reqOp ≠ 0b11#2)

/-- A run is safe when no step of it is refused; no step faults (`Fault` has no member). -/
def SafeStep (s : State) : Prop := ∃ s', step s = .next s'

/-- The result denies the access: every one but `Granted` (R85 to R87). -/
def AccessResult.denies : AccessResult → Bool
  | .granted _ => false
  | .fault _ => true
  | .faultUnmapped => true
  | .rangeOverflow _ => true

/-! ### Invariants -/

/-- The answers in flight (R104): each is due in 1 to L cycles, in the order of their samples, no two at once; and
while an evaluation is in progress the last cycle of the pipeline is free for its answer. -/
def PipeOrdered (s : State) : Prop :=
  (s.pipe.map fun p => p.due).Pairwise (· < ·) ∧
  (∀ p ∈ s.pipe, 1 ≤ p.due ∧ p.due ≤ s.config.evalLatency) ∧
  (s.scan.active = true → ∀ p ∈ s.pipe, p.due < s.config.evalLatency)

/-- `HAS_TRACE` set to b, and nothing else changed. -/
def State.setHasTrace (s : State) (b : Bool) : State := { s with config := { s.config with hasTrace := b } }

/-- Two states that differ at most in the parameter `HAS_TRACE` and in the traces shown or in flight (R81). -/
def SameButTrace (a b : State) : Prop :=
  a.config.evalLatency = b.config.evalLatency ∧ a.inputs = b.inputs ∧ a.scan = b.scan ∧
  (a.out.map fun o => o.result) = (b.out.map fun o => o.result) ∧
  (a.pipe.map fun p => (p.due, p.output.result)) = (b.pipe.map fun p => (p.due, p.output.result))

/-- The output is the answer to some one sample, whole (R91, R100). -/
def IsAnswer (c : Config) (o : Output) : Prop := ∃ T q, o = answer c T q

/-- The scan in progress is the beginning of the evaluation of its own snapshot: no entry below its index ends the
scan, and its trace is what those entries emit; and between evaluations there is no scan state (R29, R39, R65). -/
def ScanSound (s : State) : Prop :=
  if s.scan.active then
    (∀ j, j < s.scan.index → ¬ Stops s.scan.table s.scan.req.t j) ∧
    s.scan.trace = ((List.finRange 64).filter fun j => decide (j < s.scan.index)).filterMap
      (closedRecord s.scan.table s.scan.req.t)
  else s.scan = Scan.idle

/-- Everything the block shows or will show is the answer to one sample, and the scan is sound. -/
def AnswersSound (s : State) : Prop :=
  (∀ o, s.out = some o → IsAnswer s.config o) ∧ (∀ p ∈ s.pipe, IsAnswer s.config p.output) ∧ ScanSound s

end Sys2Proof.Machine
end

