-- ==== Sys2Proof/Certificates/Slice0/Obligations.lean ====
section
/-! DEFINITION. The statements for the provers.  Each docstring names the rule of spec/ it formalises. -/

open Sys2Proof Sys2Proof.Machine

/-! ### Encodings -/

/-- R44 to R47, R49: no bit of an encoding is dropped, and every word of either port has one meaning. -/
def Obligations.EncodeDecodeRoundTrip : Prop :=
  (∀ i : Instr, decode (encode i) = .ok i) ∧ ∀ (w : PortWord) (i : Instr), decode w = .ok i → encode i = w

/-- R50, R53: the decoder refuses `req_op = 0b11`, and nothing else. -/
def Obligations.DecodeRejectsOnlyTheReservedOperation : Prop :=
  ∀ w : PortWord,
    (w.wellFormed = true ↔ ∃ i, decode w = .ok i) ∧
    (w.wellFormed = false ↔ decode w = .error .reservedOperation) ∧
    (w.wellFormed = false ↔ ∃ t, w = .request 0b11#2 t)

/-- Words written out from R45, R46 and R49, one for each row of the opcode table. -/
def Obligations.WordsFromTheSpecDecode : Prop :=
  decode (.entry 0b00000111#8 0x00001000#32) = .ok (.off ⟨true, true, true, 0b000#3⟩ 0x00001000#32) ∧
  decode (.entry 0b11101001#8 0x00001000#32) = .ok (.tor ⟨true, false, false, 0b111#3⟩ 0x00001000#32) ∧
  decode (.entry 0b00010010#8 0x00000100#32) = .ok (.na4 ⟨false, true, false, 0b000#3⟩ 0x00000100#32) ∧
  decode (.entry 0b01011100#8 0x80000007#32) = .ok (.napot ⟨false, false, true, 0b010#3⟩ 0x80000007#32) ∧
  decode (.request 0b00#2 0x00008000#32) = .ok (.checkR 0x00008000#32) ∧
  decode (.request 0b01#2 0x80000004#32) = .ok (.checkW 0x80000004#32) ∧
  decode (.request 0b10#2 0xFFFFFFFF#32) = .ok (.checkX 0xFFFFFFFF#32)

/-- R45, R46: every field of the config byte at its bits, and the mode by mask 0x18. -/
def Obligations.ConfigByteFields : Prop :=
  ∀ (cfg : Byte) (a : Word), ∃ p : Attr,
    p.r = cfg.getLsbD 0 ∧ p.w = cfg.getLsbD 1 ∧ p.x = cfg.getLsbD 2 ∧ p.reserved.toNat = cfg.toNat / 32 ∧
    (cfg &&& 0x18#8 = 0x00#8 → decode (.entry cfg a) = .ok (.off p a)) ∧
    (cfg &&& 0x18#8 = 0x08#8 → decode (.entry cfg a) = .ok (.tor p a)) ∧
    (cfg &&& 0x18#8 = 0x10#8 → decode (.entry cfg a) = .ok (.na4 p a)) ∧
    (cfg &&& 0x18#8 = 0x18#8 → decode (.entry cfg a) = .ok (.napot p a))

/-- R49: the three operation codes, the target address, and the permission bit each reads; 0b11 is none of them. -/
def Obligations.RequestCodes : Prop :=
  ∀ (t : Word) (cfg : Byte),
    decode (.request 0b00#2 t) = .ok (.checkR t) ∧ permitted cfg .read = cfg.getLsbD 0 ∧
    decode (.request 0b01#2 t) = .ok (.checkW t) ∧ permitted cfg .write = cfg.getLsbD 1 ∧
    decode (.request 0b10#2 t) = .ok (.checkX t) ∧ permitted cfg .execute = cfg.getLsbD 2 ∧
    decode (.request 0b11#2 t) = .error .reservedOperation

/-- R51: the codes on `res_kind` and `res_index`, from which the result is read back; `res_index` is not read for
`FaultUnmapped`. -/
def Obligations.ResultWires : Prop :=
  (∀ i : Index,
    (AccessResult.granted i).kind = 0b00#2 ∧ (AccessResult.granted i).index.toNat = i.val ∧
    (AccessResult.fault i).kind = 0b01#2 ∧ (AccessResult.fault i).index.toNat = i.val ∧
    (AccessResult.rangeOverflow i).kind = 0b11#2 ∧ (AccessResult.rangeOverflow i).index.toNat = i.val) ∧
  AccessResult.faultUnmapped.kind = 0b10#2 ∧ AccessResult.faultUnmapped.index = 0b000000#6 ∧
  (∀ r : AccessResult, AccessResult.ofWires r.kind r.index = r) ∧
  ∀ b : BitVec 6, AccessResult.ofWires 0b10#2 b = .faultUnmapped

/-! ### The RangeResolver -/

/-- R57: an Off entry is disabled, whatever its other bits and its address word: it never matches and never overflows;
its address word is still the lower bound of a TOR entry after it. -/
def Obligations.OffEntryIsDisabled : Prop :=
  ∀ (T : Table) (i : Index), T.cfg i &&& 0x18#8 = 0x00#8 →
    resolve T i = .disabled ∧ (∀ t, ¬ Covers T t i) ∧ ¬ Overflows T i ∧
    ∀ j : Index, j.val = i.val + 1 → T.cfg j &&& 0x18#8 = 0x08#8 → resolve T j = .range (T.addr i) (T.addr j)

/-- R58: TOR is `[addr[i-1], addr[i])` whatever the previous entry's config byte is, from 0 for entry 0; it never
overflows, is empty when the base is not below the limit, and never covers 0xFFFFFFFF. -/
def Obligations.TorRangeFromPreviousWord : Prop :=
  ∀ (T : Table) (i : Index), T.cfg i &&& 0x18#8 = 0x08#8 →
    (i.val = 0 → resolve T i = .range 0 (T.addr i)) ∧
    (∀ j : Index, i.val = j.val + 1 → resolve T i = .range (T.addr j) (T.addr i)) ∧
    (∀ j : Index, i.val = j.val + 1 → T.addr i ≤ T.addr j → ∀ t, ¬ Covers T t i) ∧
    (T.addr i = 0 → ∀ t, ¬ Covers T t i) ∧
    ¬ Overflows T i ∧ ¬ Covers T 0xFFFFFFFF#32 i

/-- R59: NA4 is `[a, a + 4)`, unaligned and exact, and overflows from 0xFFFFFFFC on. -/
def Obligations.Na4RangeIsFourBytes : Prop :=
  ∀ (T : Table) (i : Index), T.cfg i &&& 0x18#8 = 0x10#8 →
    ((T.addr i).toNat < 0xFFFFFFFC →
      ∃ l : Word, l.toNat = (T.addr i).toNat + 4 ∧ resolve T i = .range (T.addr i) l) ∧
    (0xFFFFFFFC ≤ (T.addr i).toNat → resolve T i = .overflow (T.addr i) ((T.addr i).toNat + 4))

/-- R60: NAPOT with `a[0] = 0` is the NA4 range; with a run of c >= 1 trailing 1 bits it is the block of `2^(c+2)` bytes
that `a` lies in, its base `a` aligned down to that size, and an overflow when the block's end passes 0xFFFFFFFF. -/
def Obligations.NapotRangeFromTrailingOnes : Prop :=
  ∀ (T : Table) (i : Index), T.cfg i &&& 0x18#8 = 0x18#8 →
    ((T.addr i).getLsbD 0 = false → (T.addr i).toNat < 0xFFFFFFFC →
      ∃ l : Word, l.toNat = (T.addr i).toNat + 4 ∧ resolve T i = .range (T.addr i) l) ∧
    ((T.addr i).getLsbD 0 = false → 0xFFFFFFFC ≤ (T.addr i).toNat →
      resolve T i = .overflow (T.addr i) ((T.addr i).toNat + 4)) ∧
    ∀ c : Nat, 1 ≤ c → c ≤ 32 → (∀ k, k < c → (T.addr i).getLsbD k = true) →
      (c < 32 → (T.addr i).getLsbD c = false) →
      ∃ b : Word, b.toNat = (T.addr i).toNat / 2 ^ (c + 2) * 2 ^ (c + 2) ∧
        (b.toNat + 2 ^ (c + 2) ≤ 0xFFFFFFFF →
          ∃ l : Word, l.toNat = b.toNat + 2 ^ (c + 2) ∧ resolve T i = .range b l) ∧
        (0xFFFFFFFF < b.toNat + 2 ^ (c + 2) → resolve T i = .overflow b (b.toNat + 2 ^ (c + 2)))

/-- R61: `ctz1(a)` is the length of the run of 1 bits of a upward from bit 0. -/
def Obligations.Ctz1CountsTrailingOnes : Prop :=
  ∀ a : Word, ctz1 a ≤ 32 ∧ (∀ k, k < ctz1 a → a.getLsbD k = true) ∧
    (ctz1 a < 32 → a.getLsbD (ctz1 a) = false)

/-- R62's table of the overflowing entries, complete, with the exact base and limit of each. -/
def Obligations.OverflowingEntriesExactly : Prop :=
  ∀ (T : Table) (i : Index),
    (Overflows T i ↔
      (T.cfg i &&& 0x18#8 = 0x10#8 ∧ 0xFFFFFFFC ≤ (T.addr i).toNat) ∨
      (T.cfg i &&& 0x18#8 = 0x18#8 ∧
        ((T.addr i = 0xFFFFFFFC#32 ∨ T.addr i = 0xFFFFFFFE#32) ∨
         (1 ≤ ctz1 (T.addr i) ∧ ctz1 (T.addr i) ≤ 29 ∧
           ∀ k, ctz1 (T.addr i) + 2 ≤ k → k < 32 → (T.addr i).getLsbD k = true) ∨
         30 ≤ ctz1 (T.addr i)))) ∧
    (∀ b l, resolve T i = .overflow b l → 0xFFFFFFFF < l) ∧
    (T.cfg i &&& 0x18#8 = 0x10#8 → 0xFFFFFFFC ≤ (T.addr i).toNat →
      resolve T i = .overflow (T.addr i) ((T.addr i).toNat + 4)) ∧
    (T.cfg i &&& 0x18#8 = 0x18#8 → T.addr i = 0xFFFFFFFC#32 →
      resolve T i = .overflow 0xFFFFFFFC#32 0x100000000) ∧
    (T.cfg i &&& 0x18#8 = 0x18#8 → T.addr i = 0xFFFFFFFE#32 →
      resolve T i = .overflow 0xFFFFFFFE#32 0x100000002) ∧
    (T.cfg i &&& 0x18#8 = 0x18#8 → 30 ≤ ctz1 (T.addr i) →
      resolve T i = .overflow 0 (2 ^ (ctz1 (T.addr i) + 2))) ∧
    (T.cfg i &&& 0x18#8 = 0x18#8 → 1 ≤ ctz1 (T.addr i) → ctz1 (T.addr i) ≤ 29 → Overflows T i →
      ∃ b : Word, b.toNat = 2 ^ 32 - 2 ^ (ctz1 (T.addr i) + 2) ∧ resolve T i = .overflow b (2 ^ 32))

/-- R63: NA4 and NAPOT agree on an even address word. -/
def Obligations.Na4AndNapotAgreeOnEvenWords : Prop :=
  ∀ (T T' : Table) (i : Index), T.addr i = T'.addr i → (T.addr i).getLsbD 0 = false →
    T.cfg i &&& 0x18#8 = 0x10#8 → T'.cfg i &&& 0x18#8 = 0x18#8 → resolve T i = resolve T' i

/-- R64: the sizes of the ranges, when a TOR range is empty, and the word a range contains. -/
def Obligations.RangesAndTheirWords : Prop :=
  ∀ (T : Table) (i : Index) (b l : Word), resolve T i = .range b l →
    (T.cfg i &&& 0x18#8 = 0x10#8 → l.toNat = b.toNat + 4 ∧ b = T.addr i) ∧
    (T.cfg i &&& 0x18#8 = 0x18#8 → (T.addr i).getLsbD 0 = false → l.toNat = b.toNat + 4 ∧ b = T.addr i) ∧
    (T.cfg i &&& 0x18#8 = 0x18#8 → (T.addr i).getLsbD 0 = true →
      l.toNat = b.toNat + 2 ^ (ctz1 (T.addr i) + 2) ∧ b ≤ T.addr i ∧ T.addr i < l) ∧
    (T.cfg i &&& 0x18#8 = 0x08#8 →
      ((∀ t, ¬ Covers T t i) ↔
        ((i.val = 0 ∧ T.addr i = 0) ∨ ∃ j : Index, i.val = j.val + 1 ∧ T.addr i ≤ T.addr j)))

/-! ### The AccessEvaluator -/

/-- R23: config bytes that differ only in bits 7:5 give the same result, and the trace carries all 8 bits unchanged. -/
def Obligations.ReservedConfigBitsIgnored : Prop :=
  (∀ (T T' : Table) (q : Request),
    (∀ i, T.addr i = T'.addr i ∧ T.cfg i &&& 0x1F#8 = T'.cfg i &&& 0x1F#8) →
    (evaluate T q).1 = (evaluate T' q).1) ∧
  ∀ (T : Table) (q : Request), ∀ r ∈ (evaluate T q).2, r.configBits = T.cfg r.index

/-- R68: the operation's own permission bit of the matching entry decides, and no other permission bit of any entry takes
part. -/
def Obligations.OnlyTheOperationsBitIsRead : Prop :=
  (∀ (T : Table) (t : Word) (i : Index), FirstStop T t i → Covers T t i →
    (evaluate T ⟨t, .read⟩).1 = (if (T.cfg i).getLsbD 0 then .granted i else .fault i) ∧
    (evaluate T ⟨t, .write⟩).1 = (if (T.cfg i).getLsbD 1 then .granted i else .fault i) ∧
    (evaluate T ⟨t, .execute⟩).1 = (if (T.cfg i).getLsbD 2 then .granted i else .fault i)) ∧
  ∀ (T T' : Table) (t : Word),
    (∀ i, T.addr i = T'.addr i ∧ T.cfg i &&& 0x18#8 = T'.cfg i &&& 0x18#8) →
    ((∀ i, (T.cfg i).getLsbD 0 = (T'.cfg i).getLsbD 0) →
      (evaluate T ⟨t, .read⟩).1 = (evaluate T' ⟨t, .read⟩).1) ∧
    ((∀ i, (T.cfg i).getLsbD 1 = (T'.cfg i).getLsbD 1) →
      (evaluate T ⟨t, .write⟩).1 = (evaluate T' ⟨t, .write⟩).1) ∧
    ((∀ i, (T.cfg i).getLsbD 2 = (T'.cfg i).getLsbD 2) →
      (evaluate T ⟨t, .execute⟩).1 = (evaluate T' ⟨t, .execute⟩).1)

/-- R67: the operation takes no part in the match: two operations at one address stop at the same entry, for the same
kind of reason. -/
def Obligations.OperationTakesNoPartInTheMatch : Prop :=
  ∀ (T : Table) (t : Word) (op op' : Op),
    ((evaluate T ⟨t, op⟩).1 = .faultUnmapped ↔ (evaluate T ⟨t, op'⟩).1 = .faultUnmapped) ∧
    (∀ i, (evaluate T ⟨t, op⟩).1 = .rangeOverflow i ↔ (evaluate T ⟨t, op'⟩).1 = .rangeOverflow i) ∧
    (∀ i, ((evaluate T ⟨t, op⟩).1 = .granted i ∨ (evaluate T ⟨t, op⟩).1 = .fault i) ↔
      ((evaluate T ⟨t, op'⟩).1 = .granted i ∨ (evaluate T ⟨t, op'⟩).1 = .fault i)) ∧
    (evaluate T ⟨t, op⟩).2 = (evaluate T ⟨t, op'⟩).2

/-- R69: CHECK.R completes from every state: `Granted`/`Fault` by R of the first matching entry, `RangeOverflow` when the
scan reaches an overflowing entry first, `FaultUnmapped` when nothing stops it; and it changes nothing but the outputs. -/
def Obligations.CheckReadAnswers : Prop :=
  ∀ (t : Word) (s : State), ∃ (s' : State) (o : Output), exec (.checkR t) s = .next s' ∧ Answered s o s' ∧
    (∀ i, FirstStop s.inputs.table t i → Covers s.inputs.table t i →
      o.result = if (s.inputs.table.cfg i).getLsbD 0 then .granted i else .fault i) ∧
    (∀ i, FirstStop s.inputs.table t i → Overflows s.inputs.table i → o.result = .rangeOverflow i) ∧
    ((∀ i, ¬ Stops s.inputs.table t i) → o.result = .faultUnmapped)

/-- R70: CHECK.W completes from every state; as CHECK.R, with W of the first matching entry. -/
def Obligations.CheckWriteAnswers : Prop :=
  ∀ (t : Word) (s : State), ∃ (s' : State) (o : Output), exec (.checkW t) s = .next s' ∧ Answered s o s' ∧
    (∀ i, FirstStop s.inputs.table t i → Covers s.inputs.table t i →
      o.result = if (s.inputs.table.cfg i).getLsbD 1 then .granted i else .fault i) ∧
    (∀ i, FirstStop s.inputs.table t i → Overflows s.inputs.table i → o.result = .rangeOverflow i) ∧
    ((∀ i, ¬ Stops s.inputs.table t i) → o.result = .faultUnmapped)

/-- R71: CHECK.X completes from every state; as CHECK.R, with X of the first matching entry. -/
def Obligations.CheckExecuteAnswers : Prop :=
  ∀ (t : Word) (s : State), ∃ (s' : State) (o : Output), exec (.checkX t) s = .next s' ∧ Answered s o s' ∧
    (∀ i, FirstStop s.inputs.table t i → Covers s.inputs.table t i →
      o.result = if (s.inputs.table.cfg i).getLsbD 2 then .granted i else .fault i) ∧
    (∀ i, FirstStop s.inputs.table t i → Overflows s.inputs.table i → o.result = .rangeOverflow i) ∧
    ((∀ i, ¬ Stops s.inputs.table t i) → o.result = .faultUnmapped)

/-- R73: a scan that nothing stops gives `FaultUnmapped`, whatever the operation; in particular a table of Off entries
does, for every request, with an empty trace (R78). -/
def Obligations.UnmatchedIsUnmapped : Prop :=
  (∀ (T : Table) (q : Request), (∀ i, ¬ Stops T q.t i) → (evaluate T q).1 = .faultUnmapped) ∧
  ∀ (T : Table) (q : Request), (∀ i, T.cfg i &&& 0x18#8 = 0x00#8) → evaluate T q = (.faultUnmapped, [])

/-- R74: the lowest-indexed entry that overflows or contains t decides; so a lower denying entry beats a higher granting
one. -/
def Obligations.FirstMatchWins : Prop :=
  (∀ (T : Table) (q : Request) (i : Index), FirstStop T q.t i →
    (Overflows T i → (evaluate T q).1 = .rangeOverflow i) ∧
    (Covers T q.t i → (evaluate T q).1 = .granted i ∨ (evaluate T q).1 = .fault i)) ∧
  ∀ (T : Table) (q : Request) (i j : Index), i < j → (∀ k, k < i → ¬ Stops T q.t k) →
    Covers T q.t i → Covers T q.t j → permitted (T.cfg i) q.op = false → permitted (T.cfg j) q.op = true →
    (evaluate T q).1 = .fault i

/-- R75: the closed form gives the result and the trace of the scan, for every table and request. -/
def Obligations.ClosedFormEqualsScan : Prop :=
  ∀ (T : Table) (q : Request), closedForm T q = evaluate T q

/-- R37: the byte at 0xFFFFFFFF is never granted and never a permission fault. -/
def Obligations.TopByteIsNeverCovered : Prop :=
  ∀ (T : Table) (op : Op),
    (evaluate T ⟨0xFFFFFFFF#32, op⟩).1 = .faultUnmapped ∨
    ∃ i, (evaluate T ⟨0xFFFFFFFF#32, op⟩).1 = .rangeOverflow i

/-- R72: the scan stops at the first matching entry, with `Granted` if its permission bit is set and `Fault` if not, and
the entries after the one the scan stops at have no effect on the result or the trace. -/
def Obligations.ScanStopsAtTheFirstMatch : Prop :=
  (∀ (T : Table) (q : Request) (i : Index), FirstStop T q.t i → Covers T q.t i →
    (permitted (T.cfg i) q.op = true → (evaluate T q).1 = .granted i) ∧
    (permitted (T.cfg i) q.op = false → (evaluate T q).1 = .fault i)) ∧
  ∀ (T T' : Table) (q : Request) (i : Index), FirstStop T q.t i → (∀ j, j ≤ i → T.cfg j = T'.cfg j) →
    (∀ j, j ≤ i → T.addr j = T'.addr j) → evaluate T q = evaluate T' q

/-- R84: the cause of each outcome, as an equivalence. -/
def Obligations.OutcomesByCause : Prop :=
  ∀ (T : Table) (q : Request),
    (∀ i, (evaluate T q).1 = .granted i ↔
      FirstStop T q.t i ∧ Covers T q.t i ∧ permitted (T.cfg i) q.op = true) ∧
    (∀ i, (evaluate T q).1 = .fault i ↔
      FirstStop T q.t i ∧ Covers T q.t i ∧ permitted (T.cfg i) q.op = false) ∧
    ((evaluate T q).1 = .faultUnmapped ↔ ∀ i, ¬ Covers T q.t i ∧ ¬ Overflows T i) ∧
    (∀ i, (evaluate T q).1 = .rangeOverflow i ↔ FirstStop T q.t i ∧ Overflows T i)

/-! ### The trace -/

/-- R77 to R80: the trace has, in increasing index order, one record for each entry the scan reached and resolved to a
range, with the entry's own facts, and none for an Off or overflowing entry; the matched record is that of the entry
that ended the scan with `Granted` or `Fault`, and there is one exactly then. -/
def Obligations.TraceHasExaminedRanges : Prop :=
  ∀ (T : Table) (q : Request),
    ((evaluate T q).2.map fun r => r.index).Pairwise (· < ·) ∧
    (∀ i, (∃ r ∈ (evaluate T q).2, r.index = i) ↔
      (∃ b l, resolve T i = .range b l) ∧ ∀ j, j < i → ¬ Stops T q.t j) ∧
    (∀ r ∈ (evaluate T q).2,
      resolve T r.index = .range r.base r.limit ∧ r.configBits = T.cfg r.index ∧
      r.mode = modeOf (T.cfg r.index) ∧ r.mode ≠ .off ∧
      (r.matched = true ↔ r.base ≤ q.t ∧ q.t < r.limit)) ∧
    (∀ i, ((evaluate T q).1 = .granted i ∨ (evaluate T q).1 = .fault i) ↔
      ∃ r ∈ (evaluate T q).2, r.index = i ∧ r.matched = true)

/-- R81: a step of a block without the trace output gives what a step of one with it gives, but for the traces. -/
def Obligations.TraceNeverChangesTheResult : Prop :=
  ∀ (s : State) (b : Bool),
    (∀ s', step s = .next s' → ∃ s'', step (s.setHasTrace b) = .next s'' ∧ SameButTrace s' s'') ∧
    ∀ r, step s = .refused r → step (s.setHasTrace b) = .refused r

/-- R82: on the ports `tr_valid[i]` is 1 exactly when entry i has a record, `tr_match[i]` is 0 otherwise, and the records
read back from the ports in increasing i are the trace. -/
def Obligations.TraceWires : Prop :=
  ∀ (s : State) (T : Table) (q : Request), s.config.hasTrace = true → s.portOut = some (answer s.config T q) →
    (∀ i, (s.trValid i = some true ↔ ∃ r ∈ (evaluate T q).2, r.index = i) ∧
      (s.trValid i ≠ some true → s.trValid i = some false ∧ s.trMatch i = some false)) ∧
    s.wireTrace T = (evaluate T q).2

/-! ### The four modes as scan steps: each completes from every state -/

/-- R57, R66, R79: inside an evaluation OFF is skipped: the scan passes on without a record; after entry 63 it ends with
`FaultUnmapped` (R29, R73). -/
def Obligations.OffIsSkipped : Prop :=
  ∀ (p : Attr) (a : Word) (s : State), s.scan.active = true → ∃ s', exec (.off p a) s = .next s' ∧ ScanPasses s [] s'

/-- R58, R66, R67, R72, R77: inside an evaluation TOR is matched against `[addr[i-1], a)`, with 0 for `addr[i-1]` at
entry 0; its record is emitted; a match ends the scan by the permission bit, and a miss passes on, after entry 63 to
`FaultUnmapped` (R29, R73). -/
def Obligations.TorIsExamined : Prop :=
  ∀ (p : Attr) (a b : Word) (s : State),
    s.scan.active = true → (s.scan.index.val = 0 → b = 0) →
    (∀ j : Index, s.scan.index.val = j.val + 1 → b = s.scan.table.addr j) →
    ∃ s', exec (.tor p a) s = .next s' ∧
      ((b ≤ s.scan.req.t ∧ s.scan.req.t < a) →
        ScanEnds s (verdict s.scan.index (cfgByte .tor p) s.scan.req.op)
          [⟨s.scan.index, .tor, cfgByte .tor p, b, a, true⟩] s') ∧
      (¬ (b ≤ s.scan.req.t ∧ s.scan.req.t < a) →
        ScanPasses s [⟨s.scan.index, .tor, cfgByte .tor p, b, a, false⟩] s')

/-- R59, R62, R66, R67, R72, R77, R80: inside an evaluation NA4 is matched against `[a, a + 4)`, and its record is
emitted; from 0xFFFFFFFC on it ends the scan with `RangeOverflow`, without a record, whatever the target is; a miss passes
on, after entry 63 to `FaultUnmapped` (R29, R73). -/
def Obligations.Na4IsExamined : Prop :=
  ∀ (p : Attr) (a : Word) (s : State), s.scan.active = true → ∃ s', exec (.na4 p a) s = .next s' ∧
    (0xFFFFFFFC ≤ a.toNat → ScanEnds s (.rangeOverflow s.scan.index) [] s') ∧
    (∀ l : Word, l.toNat = a.toNat + 4 → a ≤ s.scan.req.t → s.scan.req.t < l →
      ScanEnds s (verdict s.scan.index (cfgByte .na4 p) s.scan.req.op)
        [⟨s.scan.index, .na4, cfgByte .na4 p, a, l, true⟩] s') ∧
    (∀ l : Word, l.toNat = a.toNat + 4 → ¬ (a ≤ s.scan.req.t ∧ s.scan.req.t < l) →
      ScanPasses s [⟨s.scan.index, .na4, cfgByte .na4 p, a, l, false⟩] s')

/-- R60, R62, R66, R67, R72, R77, R80: inside an evaluation NAPOT with `a[0] = 0` is matched against `[a, a + 4)`, and
with c >= 1 trailing 1 bits against the aligned block of `2^(c+2)` bytes, and its record is emitted; where the limit passes
0xFFFFFFFF it ends the scan with `RangeOverflow`, without a record; a miss passes on, after entry 63 to `FaultUnmapped`
(R29, R73). -/
def Obligations.NapotIsExamined : Prop :=
  ∀ (p : Attr) (a : Word) (s : State) (size base : Nat), s.scan.active = true →
    (a.getLsbD 0 = false → size = 4 ∧ base = a.toNat) →
    (a.getLsbD 0 = true → size = 2 ^ (ctz1 a + 2) ∧ base = a.toNat / size * size) →
    ∃ s', exec (.napot p a) s = .next s' ∧
      (0xFFFFFFFF < base + size → ScanEnds s (.rangeOverflow s.scan.index) [] s') ∧
      (∀ b l : Word, b.toNat = base → l.toNat = base + size → b ≤ s.scan.req.t → s.scan.req.t < l →
        ScanEnds s (verdict s.scan.index (cfgByte .napot p) s.scan.req.op)
          [⟨s.scan.index, .napot, cfgByte .napot p, b, l, true⟩] s') ∧
      (∀ b l : Word, b.toNat = base → l.toNat = base + size → ¬ (b ≤ s.scan.req.t ∧ s.scan.req.t < l) →
        ScanPasses s [⟨s.scan.index, .napot, cfgByte .napot p, b, l, false⟩] s')

/-! ### The step -/

/-- Inside an evaluation a step runs the instruction that the entry under examination decodes to (R66), at latency
0 as long as the host holds the inputs (R39, R100).  That such a step is no clock edge, so that no answer in flight moves,
is the model's choice (notes/assumptions/3.md, DEDUCED). -/
def Obligations.StepRunsTheEntryUnderExamination : Prop :=
  ∀ (s : State) (i : Instr), s.scan.active = true → (s.config.evalLatency = 0 → InputsHeld s) →
    decode (.entry (s.scan.table.cfg s.scan.index) (s.scan.table.addr s.scan.index)) = .ok i →
    step s = exec i s

/-- Between evaluations a step runs the instruction that the request port decodes to: at latency 0 always; at latency
L > 0 when `req_valid = 1`, after the clock edge has moved the answers in flight; and without `req_valid` only the clock
edge happens (R49, R52, R104).  That the answers move before the sample is taken is the model's choice
(notes/assumptions/6.md, DEDUCED). -/
def Obligations.StepRunsTheRequestPresented : Prop :=
  ∀ s : State, s.scan.active = false →
    (∀ i : Instr, s.inputs.stable = true → decode (.request s.inputs.reqOp s.inputs.reqAddr) = .ok i →
      (s.config.evalLatency = 0 → step s = exec i s) ∧
      (s.config.evalLatency ≠ 0 → s.inputs.reqValid = true → step s = exec i s.tick)) ∧
    (s.config.evalLatency ≠ 0 → s.inputs.reqValid = false → step s = .next s.tick)

/-- At latency L > 0 a clock edge with `req_valid = 0` samples nothing, whatever else the host drives (R52).  That an
answer is out exactly after the edge at which it is due, and for that one cycle, is the model's choice
(notes/assumptions/6.md, DEDUCED). -/
def Obligations.ClockEdgeWithoutRequestOnlyTicks : Prop :=
  ∀ s : State, s.scan.active = false → s.config.evalLatency ≠ 0 → s.inputs.reqValid = false →
    ∃ s', step s = .next s' ∧ s'.config = s.config ∧ s'.inputs = s.inputs ∧ s'.scan = s.scan ∧
      (s.pipe = [] → s'.out = none ∧ s'.pipe = []) ∧
      (∀ p ps, s.pipe = p :: ps → p.due ≤ 1 →
        s'.out = some p.output ∧ s'.pipe = ps.map fun x => ⟨x.due - 1, x.output⟩) ∧
      (∀ p ps, s.pipe = p :: ps → 2 ≤ p.due →
        s'.out = none ∧ s'.pipe = s.pipe.map fun x => ⟨x.due - 1, x.output⟩)

/-- R25: no step writes an input of the block, the RegionTable among them, nor a parameter. -/
def Obligations.StepNeverWritesTheInputs : Prop :=
  ∀ s s' : State, step s = .next s' → s'.inputs = s.inputs ∧ s'.config = s.config

/-- R50, R100, R103: a step completes exactly when the host keeps its duties; there is no other stop. -/
def Obligations.StepCompletesExactlyUnderTheHostContract : Prop :=
  ∀ s : State, HostContract s ↔ ∃ s', step s = .next s'

/-- R50: a sampled request with the code 0b11 is refused. -/
def Obligations.ReservedOperationIsRefused : Prop :=
  ∀ s : State, Samples s → s.inputs.stable = true → s.inputs.reqOp = 0b11#2 →
    step s = .refused .reservedOperation

/-- R100, with the model's own input `stable` for the host's duty (DESIGN CHOICE, notes/assumptions/5.md): a change of an
input in the window that R100 forbids is refused, at latency 0 also a table or a request that is no longer the one the
evaluation in progress was given; a change after a sample at latency L > 0 has no effect on that sample's evaluation, in
progress or in flight. -/
def Obligations.InputStability : Prop :=
  (∀ s : State, OwesStability s → ¬ InputsHeld s → step s = .refused .inputsChanged) ∧
  (∀ (s : State) (ins : Inputs), s.scan.active = true → s.config.evalLatency = 0 →
    (ins.stable = false ∨ ins.table ≠ s.scan.table ∨ ins.reqAddr ≠ s.scan.req.t ∨ ins.reqOp ≠ s.scan.req.op.code) →
    step (s.present ins) = .refused .inputsChanged) ∧
  (∀ (s s' : State) (ins : Inputs), s.scan.active = true → s.config.evalLatency ≠ 0 → step s = .next s' →
    step (s.present ins) = .next (s'.present ins)) ∧
  ∀ (s a : State) (ins : Inputs), s.scan.active = false → s.config.evalLatency ≠ 0 →
    step (s.present ins) = .next a →
    a.out = s.tick.out ∧ ∃ new, a.pipe = s.tick.pipe ++ new ∧ new.length ≤ 1

/-- R103: from any point inside an evaluation (at latency 0, one whose inputs the host holds, R100), at most one step for
each entry not yet examined ends it. -/
def Obligations.ScanTerminates : Prop :=
  ∀ s : State, s.scan.active = true → (s.config.evalLatency = 0 → InputsHeld s) →
    ∃ (n : Nat) (s' : State), n ≤ 64 - s.scan.index.val ∧ core.run n s = .next s' ∧ s'.scan.active = false

/-- R29, R65, R66 (D2): the evaluation CHECK.R, CHECK.W or CHECK.X does in one step is what at most 64 single steps do
from `Scanning(0)`, one entry a step; at latency 0 for the request presented, stable (R100).  The two granularities are
notes/assumptions/3.md (DEDUCED). -/
def Obligations.ScanStepsRefineCheck : Prop :=
  ∀ (s : State) (q : Request), s.scan = Scan.idle →
    (s.config.evalLatency = 0 →
      s.inputs.stable = true ∧ s.inputs.reqAddr = q.t ∧ s.inputs.reqOp = q.op.code) →
    ∃ (n : Nat) (s' : State), 1 ≤ n ∧ n ≤ 64 ∧ exec (requestInstr q.op q.t) s = .next s' ∧
      core.run n (s.beginScan q) = .next s'

/-! ### Invariants, reset and time -/

/-- R104: every step keeps the answers in flight in the order of their samples, each due within L cycles (counted as
notes/assumptions/6.md, DEDUCED). -/
def Obligations.StepKeepsPipeOrdered : Prop :=
  ∀ s s' : State, PipeOrdered s → step s = .next s' → PipeOrdered s'

/-- R29, R39, R65, R91: every step keeps it true that everything shown or in flight is the answer to one sample, and that
the scan in progress is the beginning of its own evaluation. -/
def Obligations.StepKeepsAnswersSound : Prop :=
  ∀ s s' : State, AnswersSound s → step s = .next s' → AnswersSound s'

/-- Both invariants hold right after reset, for every realization and whatever the host drives. -/
def Obligations.ResetMeetsTheInvariants : Prop :=
  ∀ (c : Config) (ins : Inputs), PipeOrdered (State.atReset c ins) ∧ AnswersSound (State.atReset c ins)

/-- R96, R30: right after reset no evaluation is in progress and nothing is in flight, for every realization and whatever
the host drives; at latency L > 0 the outputs are not valid and carry no information, and at latency 0 they follow the
inputs (`CombinationalOutputs`).  `State.reset` is that state with the inputs and the parameters the model chose
(notes/assumptions/1.md, 2.md). -/
def Obligations.ResetState : Prop :=
  (∀ (c : Config) (ins : Inputs),
    (State.atReset c ins).config = c ∧ (State.atReset c ins).inputs = ins ∧
    (State.atReset c ins).scan = Scan.idle ∧ (State.atReset c ins).pipe = [] ∧ (State.atReset c ins).out = none ∧
    (c.evalLatency ≠ 0 →
      (State.atReset c ins).resValid = some false ∧ WiresSilent (State.atReset c ins))) ∧
  State.reset = State.atReset Config.reference Inputs.zero

/-- R52, R96: at latency 0, for a request the block answers, the output wires, the trace wires among them (R82), carry
the answer to the inputs present, there is no `res_valid`, and so it is after the step that evaluates them (its field `out`: notes/assumptions/13.md, DEDUCED). -/
def Obligations.CombinationalOutputs : Prop :=
  ∀ (s : State) (op : Op), s.scan.active = false → s.config.evalLatency = 0 → s.inputs.stable = true →
    Op.ofCode s.inputs.reqOp = some op →
    s.resValid = none ∧ WiresShow s s.inputs.table ⟨s.inputs.reqAddr, op⟩ ∧
    ∃ s', step s = .next s' ∧ s'.out = s.portOut ∧ s'.portOut = s.portOut

/-- R104: at latency L > 0, whatever the host drives afterwards, L cycles after a clock edge the outputs are the answer
of the sample taken at that edge, of that sample alone (R100): `res_valid = 1`, and the result and trace wires carry it
(R51, R52, R82).  If none was taken, `res_valid = 0` and the other wires carry no information (R52, R96).
From which edge the L cycles count, and that an answer is out for one cycle, is the model's choice
(notes/assumptions/6.md, DEDUCED). -/
def Obligations.AnswerAfterLatency : Prop :=
  ∀ (s s' : State) (ins : Inputs) (later : List Inputs), PipeOrdered s → s.scan.active = false →
    later.length = s.config.evalLatency → s.config.evalLatency ≠ 0 →
    runWith (ins :: later) s = .next s' →
    (∀ op, ins.reqValid = true → Op.ofCode ins.reqOp = some op →
      s'.out = some (answer s.config ins.table ⟨ins.reqAddr, op⟩) ∧ s'.resValid = some true ∧
      s'.config = s.config ∧ WiresShow s' ins.table ⟨ins.reqAddr, op⟩) ∧
    (ins.reqValid = false → s'.out = none ∧ s'.resValid = some false ∧ WiresSilent s')

/-- R15: the output of an evaluation is a function of the table, the request and the realization's parameters alone:
nothing that happened before takes part. -/
def Obligations.AnswerIsAFunctionOfTheSample : Prop :=
  ∀ (op : Op) (t : Word), ∃ f : Config → Table → Output, ∀ s : State,
    ∃ s', exec (requestInstr op t) s = .next s' ∧ Answered s (f s.config s.inputs.table) s'

/-- R101: at latency 0, each step answers from the whole of the table presented to it, before a rebuild the old one and
after it the new one (read in the field `out`, notes/assumptions/13.md, DEDUCED). -/
def Obligations.EachEvaluationSeesItsOwnTable : Prop :=
  ∀ (s : State) (old new : Inputs) (op op' : Op), s.scan.active = false → s.config.evalLatency = 0 →
    old.stable = true → new.stable = true → Op.ofCode old.reqOp = some op → Op.ofCode new.reqOp = some op' →
    ∃ s₁ s₂, runWith [old] s = .next s₁ ∧ runWith [old, new] s = .next s₂ ∧
      s₁.out = some (answer s.config old.table ⟨old.reqAddr, op⟩) ∧
      s₂.out = some (answer s.config new.table ⟨new.reqAddr, op'⟩)

/-! ### Outside any evaluation -/

/-- Notes/assumptions/4.md, DESIGN CHOICE, no rule of the spec: a mode instruction run with no evaluation in progress, which
no step does, acts as it would inside one, at the index, the request and the snapshot that the scan holds. -/
def Obligations.ModeInstructionsDoNotReadWhetherAScanIsActive : Prop :=
  ∀ (p : Attr) (a : Word) (s t : State), t = { s with scan := { s.scan with active := true } } →
    exec (.off p a) s = exec (.off p a) t ∧ exec (.tor p a) s = exec (.tor p a) t ∧
    exec (.na4 p a) s = exec (.na4 p a) t ∧ exec (.napot p a) s = exec (.napot p a) t
end

