-- ==== Sys2Proof/Laws/Resolver.lean ====
section
/-! SUPPORT. What the decoding of a config byte, the operand assembly and `resolve` can answer. -/

namespace Sys2Proof.Machine

/-! ### The mode by mask and match (R46) -/

theorem modeOf_off : ∀ cfg : Byte, modeOf cfg = .off ↔ cfg &&& 0x18#8 = 0x00#8 := by decide
theorem modeOf_tor : ∀ cfg : Byte, modeOf cfg = .tor ↔ cfg &&& 0x18#8 = 0x08#8 := by decide
theorem modeOf_na4 : ∀ cfg : Byte, modeOf cfg = .na4 ↔ cfg &&& 0x18#8 = 0x10#8 := by decide
theorem modeOf_napot : ∀ cfg : Byte, modeOf cfg = .napot ↔ cfg &&& 0x18#8 = 0x18#8 := by decide

/-- A config byte is the mode and the other fields that are read from it. -/
theorem cfgByte_modeOf_attrOf : ∀ cfg : Byte, cfgByte (modeOf cfg) (attrOf cfg) = cfg := by decide

@[simp] theorem modeOf_cfgByte (m : Mode) (p : Attr) : modeOf (cfgByte m p) = m := by
  obtain ⟨r, w, x, v⟩ := p
  revert v
  cases m <;> cases r <;> cases w <;> cases x <;> decide

@[simp] theorem attrOf_cfgByte (m : Mode) (p : Attr) : attrOf (cfgByte m p) = p := by
  obtain ⟨r, w, x, v⟩ := p
  revert v
  cases m <;> cases r <;> cases w <;> cases x <;> decide

/-! ### resolve, mode by mode (R55) -/

variable {T : Table} {i : Index}

theorem resolve_off (h : modeOf (T.cfg i) = .off) : resolve T i = .disabled := by simp [resolve, h]

theorem resolve_tor (h : modeOf (T.cfg i) = .tor) :
    resolve T i = classify (torBounds T i (T.addr i)) := by simp [resolve, h]

theorem resolve_na4 (h : modeOf (T.cfg i) = .na4) : resolve T i = classify (na4Bounds (T.addr i)) := by
  simp [resolve, h]

theorem resolve_napot (h : modeOf (T.cfg i) = .napot) :
    resolve T i = classify (napotBounds (T.addr i)) := by simp [resolve, h]

/-- Only an Off entry is disabled. -/
theorem resolve_disabled_iff : resolve T i = .disabled ↔ modeOf (T.cfg i) = .off := by
  unfold resolve classify
  split <;> simp_all <;> split <;> simp

/-! ### classify (R62) -/

/-- A limit that fits gives the range with exactly that limit. -/
theorem classify_fits {b : Word} {l : Nat} (h : l ≤ maxAddr) :
    ∃ w : Word, w.toNat = l ∧ classify (b, l) = .range b w := by
  refine ⟨BitVec.ofNat 32 l, ?_, by simp [classify, h]⟩
  have : l < 2 ^ 32 := by simp only [maxAddr] at h; omega
  simpa using this

theorem classify_overflows {b : Word} {l : Nat} (h : maxAddr < l) :
    classify (b, l) = .overflow b l := by
  simp [classify, Nat.not_le.mpr h]

/-- A range that classify answers is the bounds it was given. -/
theorem classify_range_inv {b b' l' : Word} {l : Nat} (h : classify (b, l) = .range b' l') :
    b = b' ∧ l = l'.toNat := by
  rcases Nat.lt_or_ge maxAddr l with hl | hl
  · simp [classify_overflows hl] at h
  · obtain ⟨w, hw, e⟩ := classify_fits (b := b) hl
    rw [e] at h
    simp only [Resolved.range.injEq] at h
    exact ⟨h.1, by rw [← h.2, hw]⟩

theorem classify_overflow_inv {b b' : Word} {l l' : Nat} (h : classify (b, l) = .overflow b' l') :
    b = b' ∧ l = l' ∧ maxAddr < l := by
  unfold classify at h
  split at h
  · simp at h
  · simp only [Resolved.overflow.injEq] at h
    exact ⟨h.1, h.2, by simp only at *; omega⟩

/-- A TOR range never overflows: its limit is a u32 (R58). -/
theorem classify_torBounds (T : Table) (i : Index) (a : Word) :
    classify (torBounds T i a) = .range (torBase T i) a := by
  have h : a.toNat ≤ maxAddr := by have := a.isLt; simp only [maxAddr]; omega
  simp [classify, torBounds, h]

/-! ### Operands -/

theorem torBase_zero (h : i.val = 0) : torBase T i = 0 := by simp [torBase, h]

theorem torBase_succ {j : Index} (h : i.val = j.val + 1) : torBase T i = T.addr j := by
  simp [torBase, h]

theorem napotBounds_even {a : Word} (h : a.getLsbD 0 = false) : napotBounds a = na4Bounds a := by
  unfold napotBounds; rw [if_pos h]

/-- The aligned block of an odd word. -/
theorem napotBounds_odd {a : Word} (h : a.getLsbD 0 = true) :
    napotBounds a = (BitVec.ofNat 32 (a.toNat / 2 ^ (ctz1 a + 2) * 2 ^ (ctz1 a + 2)),
      a.toNat / 2 ^ (ctz1 a + 2) * 2 ^ (ctz1 a + 2) + 2 ^ (ctz1 a + 2)) := by
  have e : a.toNat - a.toNat % 2 ^ (ctz1 a + 2) = a.toNat / 2 ^ (ctz1 a + 2) * 2 ^ (ctz1 a + 2) := by
    have := Nat.div_add_mod a.toNat (2 ^ (ctz1 a + 2))
    rw [Nat.mul_comm] at this
    omega
  simp only [napotBounds, h, Bool.true_eq_false, ↓reduceIte, e]

/-- R61's loop: it stops at the first 0 bit or when the fuel is used up, and every bit it passed is 1. -/
theorem onesFrom_spec (a : Word) (fuel c : Nat) :
    c ≤ onesFrom a fuel c ∧ onesFrom a fuel c ≤ c + fuel ∧
    (∀ k, c ≤ k → k < onesFrom a fuel c → a.getLsbD k = true) ∧
    (onesFrom a fuel c < c + fuel → a.getLsbD (onesFrom a fuel c) = false) := by
  induction fuel generalizing c with
  | zero => exact ⟨Nat.le_refl c, Nat.le_refl c, fun k h h' => by simp only [onesFrom] at h'; omega,
      fun h => by simp [onesFrom] at h⟩
  | succ fuel ih =>
    rcases hb : a.getLsbD c with _ | _
    · have e : onesFrom a (fuel + 1) c = c := by simp [onesFrom, hb]
      rw [e]
      exact ⟨Nat.le_refl c, by omega, fun k h h' => by omega, fun _ => hb⟩
    · have e : onesFrom a (fuel + 1) c = onesFrom a fuel (c + 1) := by simp [onesFrom, hb]
      obtain ⟨h1, h2, h3, h4⟩ := ih (c + 1)
      rw [e]
      refine ⟨by omega, by omega, fun k hk hk' => ?_, fun h => h4 (by omega)⟩
      rcases Nat.eq_or_lt_of_le hk with rfl | hk
      · exact hb
      · exact h3 k hk hk'

end Sys2Proof.Machine
end

