-- ==== Sys2Proof/Laws/State.lean ====
section
/-! SUPPORT. One lemma per field per update of the state, each true by unfolding that update once. -/

namespace Sys2Proof.Machine

variable (s : State)

/-! ### present -/

@[simp] theorem present_config (ins : Inputs) : (s.present ins).config = s.config := rfl
@[simp] theorem present_inputs (ins : Inputs) : (s.present ins).inputs = ins := rfl
@[simp] theorem present_scan (ins : Inputs) : (s.present ins).scan = s.scan := rfl
@[simp] theorem present_pipe (ins : Inputs) : (s.present ins).pipe = s.pipe := rfl
@[simp] theorem present_out (ins : Inputs) : (s.present ins).out = s.out := rfl

/-! ### beginScan -/

@[simp] theorem beginScan_config (q : Request) : (s.beginScan q).config = s.config := rfl
@[simp] theorem beginScan_inputs (q : Request) : (s.beginScan q).inputs = s.inputs := rfl
@[simp] theorem beginScan_scan (q : Request) : (s.beginScan q).scan = Scan.start s.inputs.table q := rfl
@[simp] theorem beginScan_pipe (q : Request) : (s.beginScan q).pipe = s.pipe := rfl
@[simp] theorem beginScan_out (q : Request) : (s.beginScan q).out = s.out := rfl

/-! ### emit -/

@[simp] theorem emit_config (r : Option TraceRecord) : (s.emit r).config = s.config := rfl
@[simp] theorem emit_inputs (r : Option TraceRecord) : (s.emit r).inputs = s.inputs := rfl
@[simp] theorem emit_pipe (r : Option TraceRecord) : (s.emit r).pipe = s.pipe := rfl
@[simp] theorem emit_out (r : Option TraceRecord) : (s.emit r).out = s.out := rfl
@[simp] theorem emit_scan_active (r : Option TraceRecord) : (s.emit r).scan.active = s.scan.active := rfl
@[simp] theorem emit_scan_index (r : Option TraceRecord) : (s.emit r).scan.index = s.scan.index := rfl
@[simp] theorem emit_scan_req (r : Option TraceRecord) : (s.emit r).scan.req = s.scan.req := rfl
@[simp] theorem emit_scan_table (r : Option TraceRecord) : (s.emit r).scan.table = s.scan.table := rfl
@[simp] theorem emit_scan_trace (r : Option TraceRecord) :
    (s.emit r).scan.trace = s.scan.trace ++ r.toList := rfl

/-! ### deliver -/

@[simp] theorem deliver_config (o : Output) : (s.deliver o).config = s.config := by
  unfold State.deliver; split <;> rfl

@[simp] theorem deliver_inputs (o : Output) : (s.deliver o).inputs = s.inputs := by
  unfold State.deliver; split <;> rfl

@[simp] theorem deliver_scan (o : Output) : (s.deliver o).scan = s.scan := by
  unfold State.deliver; split <;> rfl

/-- At latency 0 an answer is on the outputs at once. -/
theorem deliver_now {s : State} (o : Output) (h : s.config.evalLatency = 0) :
    s.deliver o = { s with out := some o } := by
  simp [State.deliver, h]

/-- At latency > 0 an answer joins those in flight. -/
theorem deliver_later {s : State} (o : Output) (h : s.config.evalLatency ≠ 0) :
    s.deliver o = { s with pipe := s.pipe ++ [⟨s.config.evalLatency, o⟩] } := by
  simp [State.deliver, h]

/-! ### finish -/

@[simp] theorem finish_config (r : AccessResult) : (s.finish r).config = s.config := deliver_config s _
@[simp] theorem finish_inputs (r : AccessResult) : (s.finish r).inputs = s.inputs := deliver_inputs s _
@[simp] theorem finish_scan (r : AccessResult) : (s.finish r).scan = Scan.idle := rfl
@[simp] theorem finish_pipe (r : AccessResult) :
    (s.finish r).pipe = (s.deliver (Output.make s.config r s.scan.trace)).pipe := rfl
@[simp] theorem finish_out (r : AccessResult) :
    (s.finish r).out = (s.deliver (Output.make s.config r s.scan.trace)).out := rfl

/-! ### tick -/

@[simp] theorem tick_config : s.tick.config = s.config := by
  unfold State.tick; split <;> [rfl; (split <;> rfl)]

@[simp] theorem tick_inputs : s.tick.inputs = s.inputs := by
  unfold State.tick; split <;> [rfl; (split <;> rfl)]

@[simp] theorem tick_scan : s.tick.scan = s.scan := by
  unfold State.tick; split <;> [rfl; (split <;> rfl)]

theorem tick_nil {s : State} (h : s.pipe = []) : s.tick = { s with out := none } := by
  simp [State.tick, h]

/-- The oldest answer is due now. -/
theorem tick_due {s : State} {p : InFlight} {ps : List InFlight} (h : s.pipe = p :: ps) (hd : p.due ≤ 1) :
    s.tick = { s with out := some p.output, pipe := ps.map InFlight.tick } := by
  simp [State.tick, h, hd]

/-- No answer is due yet. -/
theorem tick_wait {s : State} {p : InFlight} {ps : List InFlight} (h : s.pipe = p :: ps) (hd : 1 < p.due) :
    s.tick = { s with out := none, pipe := (p :: ps).map InFlight.tick } := by
  simp [State.tick, h, Nat.not_le.mpr hd]

@[simp] theorem InFlight.tick_due_eq (p : InFlight) : p.tick.due = p.due - 1 := rfl
@[simp] theorem InFlight.tick_output (p : InFlight) : p.tick.output = p.output := rfl

/-! ### What the host drives passes through every update (R25, R100) -/

theorem present_emit (ins : Inputs) (r : Option TraceRecord) :
    (s.present ins).emit r = (s.emit r).present ins := rfl

theorem present_deliver (ins : Inputs) (o : Output) :
    (s.present ins).deliver o = (s.deliver o).present ins := by
  by_cases h : s.config.evalLatency = 0
  · rw [deliver_now o h, deliver_now (s := s.present ins) o h]; rfl
  · rw [deliver_later o h, deliver_later (s := s.present ins) o h]; rfl

theorem present_finish (ins : Inputs) (r : AccessResult) :
    (s.present ins).finish r = (s.finish r).present ins := by
  unfold State.finish
  rw [present_deliver]
  rfl

theorem present_advance (ins : Inputs) : (s.present ins).advance = s.advance.present ins := by
  by_cases h : s.scan.index.val < 63
  · simp only [State.advance, present_scan, h, ↓reduceDIte]; rfl
  · simp only [State.advance, present_scan, h, ↓reduceDIte, present_finish]

theorem present_scanStep (ins : Inputs) (cfg : Byte) (r : Resolved) :
    (s.present ins).scanStep cfg r = (s.scanStep cfg r).present ins := by
  unfold State.scanStep
  rw [present_scan]
  cases judge s.scan.index cfg r s.scan.req with
  | pass record => exact present_advance (s.emit record) ins
  | stop result record => exact present_finish (s.emit record) ins result

theorem present_tick (ins : Inputs) : (s.present ins).tick = s.tick.present ins := by
  unfold State.tick
  rw [present_pipe]
  split <;> [rfl; (split <;> rfl)]

/-! ### check, reset -/

@[simp] theorem check_config (q : Request) : (s.check q).config = s.config := deliver_config s _
@[simp] theorem check_inputs (q : Request) : (s.check q).inputs = s.inputs := deliver_inputs s _
@[simp] theorem check_scan (q : Request) : (s.check q).scan = s.scan := deliver_scan s _

@[simp] theorem atReset_scan (c : Config) (ins : Inputs) : (State.atReset c ins).scan = Scan.idle := rfl
@[simp] theorem atReset_pipe (c : Config) (ins : Inputs) : (State.atReset c ins).pipe = [] := rfl
@[simp] theorem atReset_out (c : Config) (ins : Inputs) : (State.atReset c ins).out = none := rfl

end Sys2Proof.Machine
end

