-- ==== Sys2Proof/Laws/Ops.lean ====
section
/-! SUPPORT. What each shared operation can do, said once. -/

namespace Sys2Proof.Machine

/-! ### deliver, finish, advance -/

/-- An answer delivered changes nothing but the outputs. -/
theorem deliver_answered (s : State) (o : Output) : Answered s o (s.deliver o) := by
  refine ⟨deliver_config s o, deliver_inputs s o, deliver_scan s o, fun h => ?_, fun h => ?_⟩
  · rw [deliver_now o h]; exact ⟨rfl, rfl⟩
  · rw [deliver_later o h]; exact ⟨rfl, rfl⟩

theorem make_outputIs (c : Config) (r : AccessResult) (tr : List TraceRecord) :
    OutputIs c r tr (Output.make c r tr) := ⟨rfl, rfl⟩

/-- Ending a scan after emitting a record. -/
theorem emit_finish_scanEnds (s : State) (r : AccessResult) (record : Option TraceRecord) :
    ScanEnds s r record.toList ((s.emit record).finish r) := by
  refine ⟨rfl, Output.make s.config r (s.scan.trace ++ record.toList), make_outputIs _ _ _, ?_⟩
  have h := deliver_answered (s.emit record) (Output.make s.config r (s.scan.trace ++ record.toList))
  exact ⟨h.1, h.2.1, rfl, h.2.2.2.1, h.2.2.2.2⟩

/-- Passing an entry after emitting a record. -/
theorem emit_advance_scanPasses (s : State) (record : Option TraceRecord) :
    ScanPasses s record.toList ((s.emit record).advance) := by
  by_cases h : s.scan.index.val < 63
  · simp only [ScanPasses, h, ↓reduceDIte, State.advance, emit_scan_index]
    rfl
  · simp only [ScanPasses, h, ↓reduceDIte, State.advance, emit_scan_index]
    exact emit_finish_scanEnds s .faultUnmapped record

/-! ### judge and scanStep -/

theorem inRange_iff {b l t : Word} : inRange b l t = true ↔ b ≤ t ∧ t < l := by
  simp [inRange]

theorem inRange_false_iff {b l t : Word} : inRange b l t = false ↔ ¬ (b ≤ t ∧ t < l) := by
  rw [← Bool.not_eq_true, inRange_iff]

@[simp] theorem judge_disabled (i : Index) (cfg : Byte) (q : Request) :
    judge i cfg .disabled q = .pass none := rfl

@[simp] theorem judge_overflow (i : Index) (cfg : Byte) (q : Request) (b : Word) (l : Nat) :
    judge i cfg (.overflow b l) q = .stop (.rangeOverflow i) none := rfl

theorem judge_hit {i : Index} {cfg : Byte} {q : Request} {b l : Word} (h : b ≤ q.t ∧ q.t < l) :
    judge i cfg (.range b l) q =
      .stop (verdict i cfg q.op) (some ⟨i, modeOf cfg, cfg, b, l, true⟩) := by
  have h := inRange_iff.mpr h
  simp [judge, recordOf, h]

theorem judge_miss {i : Index} {cfg : Byte} {q : Request} {b l : Word} (h : ¬ (b ≤ q.t ∧ q.t < l)) :
    judge i cfg (.range b l) q = .pass (some ⟨i, modeOf cfg, cfg, b, l, false⟩) := by
  have h := inRange_false_iff.mpr h
  simp [judge, recordOf, h]

theorem scanStep_pass {s : State} {cfg : Byte} {r : Resolved} {record : Option TraceRecord}
    (h : judge s.scan.index cfg r s.scan.req = .pass record) :
    s.scanStep cfg r = (s.emit record).advance := by
  simp [State.scanStep, h]

theorem scanStep_stop {s : State} {cfg : Byte} {r : Resolved} {record : Option TraceRecord}
    {result : AccessResult} (h : judge s.scan.index cfg r s.scan.req = .stop result record) :
    s.scanStep cfg r = (s.emit record).finish result := by
  simp [State.scanStep, h]

/-- A scan step passes its entry or ends the evaluation, by the judgement. -/
theorem scanStep_cases (s : State) (cfg : Byte) (r : Resolved) :
    (∃ record, judge s.scan.index cfg r s.scan.req = .pass record ∧
      ScanPasses s record.toList (s.scanStep cfg r)) ∨
    ∃ result record, judge s.scan.index cfg r s.scan.req = .stop result record ∧
      ScanEnds s result record.toList (s.scanStep cfg r) := by
  cases h : judge s.scan.index cfg r s.scan.req with
  | pass record => exact .inl ⟨record, rfl, scanStep_pass h ▸ emit_advance_scanPasses s record⟩
  | stop result record => exact .inr ⟨result, record, rfl, scanStep_stop h ▸ emit_finish_scanEnds s result record⟩

/-! ### The judgement on an entry of a table -/

/-- An entry ends the scan by overflowing, or by covering the target; else the scan passes it, with the record of its
range if it has one. -/
theorem judgeEntry_cases (T : Table) (q : Request) (i : Index) :
    (Overflows T i ∧ ¬ Covers T q.t i ∧ closedRecord T q.t i = none ∧
      judgeEntry T q i = .stop (.rangeOverflow i) none) ∨
    (Covers T q.t i ∧ ¬ Overflows T i ∧ (∃ r, closedRecord T q.t i = some r ∧ r.matched = true ∧
      judgeEntry T q i = .stop (verdict i (T.cfg i) q.op) (some r))) ∨
    (¬ Stops T q.t i ∧ judgeEntry T q i = .pass (closedRecord T q.t i)) := by
  unfold judgeEntry closedRecord Stops Overflows Covers
  cases h : resolve T i with
  | disabled => exact .inr (.inr ⟨by simp, rfl⟩)
  | overflow b l => exact .inl ⟨⟨b, l, rfl⟩, by simp, rfl, rfl⟩
  | range b l =>
    by_cases ht : b ≤ q.t ∧ q.t < l
    · refine .inr (.inl ⟨⟨b, l, rfl, ht⟩, by simp, _, rfl, inRange_iff.mpr ht, ?_⟩)
      simp only [judge_hit ht, recordOf, inRange_iff.mpr ht]
    · refine .inr (.inr ⟨?_, ?_⟩)
      · rintro (⟨_, _, h'⟩ | ⟨b', l', h', hc⟩)
        · simp at h'
        · simp only [Resolved.range.injEq] at h'
          exact ht (by rw [h'.1, h'.2]; exact hc)
      · simp only [judge_miss ht, recordOf, inRange_false_iff.mpr ht]

/-! ### The same as Booleans (R75) -/

theorem overflows_iff {T : Table} {i : Index} : overflows T i = true ↔ Overflows T i := by
  have off : modeOf (T.cfg i) = .off → resolve T i = .disabled := resolve_off
  unfold overflows enabled Overflows
  cases h : resolve T i with
  | disabled => simp
  | overflow b l => simpa using fun hm => by simp [off hm] at h
  | range b l => simp

theorem hits_iff {T : Table} {t : Word} {i : Index} : hits T t i = true ↔ Covers T t i := by
  have off : modeOf (T.cfg i) = .off → resolve T i = .disabled := resolve_off
  unfold hits enabled Covers
  cases h : resolve T i with
  | disabled => simp
  | overflow b l => simp
  | range b l =>
    have hm : modeOf (T.cfg i) ≠ .off := fun hm => by simp [off hm] at h
    simp [hm, inRange]

theorem stops_iff {T : Table} {t : Word} {i : Index} :
    (overflows T i || hits T t i) = true ↔ Stops T t i := by
  rw [Bool.or_eq_true, overflows_iff, hits_iff, Stops]

/-! ### The loop -/

theorem scanList_pass {T : Table} {q : Request} {i : Index} {rest : List Index} {tr : List TraceRecord}
    {record : Option TraceRecord} (h : judgeEntry T q i = .pass record) :
    scanList T q (i :: rest) tr = scanList T q rest (tr ++ record.toList) := by
  simp [scanList, h]

theorem scanList_stop {T : Table} {q : Request} {i : Index} {rest : List Index} {tr : List TraceRecord}
    {record : Option TraceRecord} {result : AccessResult} (h : judgeEntry T q i = .stop result record) :
    scanList T q (i :: rest) tr = (result, tr ++ record.toList) := by
  simp [scanList, h]

/-! ### Decoding a table's entry and running it -/

/-- The instruction of an entry, when it is the one under examination, is the scan step with that entry's config byte
and its answer of `resolve`. -/
theorem decodeEntry_scanStep (s : State) :
    exec (decodeEntry (s.scan.table.cfg s.scan.index) (s.scan.table.addr s.scan.index)) s =
      .next (s.scanStep (s.scan.table.cfg s.scan.index) (resolve s.scan.table s.scan.index)) := by
  have e := cfgByte_modeOf_attrOf (s.scan.table.cfg s.scan.index)
  unfold decodeEntry
  cases h : modeOf (s.scan.table.cfg s.scan.index) with
  | off => rw [h] at e; simp only [exec, execOff, e, resolve_off h]
  | tor => rw [h] at e; simp only [exec, execTor, e, resolve_tor h]
  | na4 => rw [h] at e; simp only [exec, execNa4, e, resolve_na4 h]
  | napot => rw [h] at e; simp only [exec, execNapot, e, resolve_napot h]

/-- A request instruction is the check of its request. -/
theorem exec_requestInstr (op : Op) (t : Word) (s : State) :
    exec (requestInstr op t) s = .next (s.check ⟨t, op⟩) := by
  cases op <;> rfl

/-! ### Stability -/

theorem holdsInputs_iff {s : State} : s.holdsInputs = true ↔ InputsHeld s := by
  unfold State.holdsInputs State.drivesSnapshot InputsHeld
  cases s.scan.active <;> simp [and_assoc]

/-- Between evaluations the inputs are held when they are stable at this step. -/
theorem holdsInputs_idle {s : State} (h : s.scan.active = false) : s.holdsInputs = s.inputs.stable := by
  simp [State.holdsInputs, h]

/-- An entry is refused at latency 0 unless the inputs are held. -/
theorem fetchEntry_refused {s : State} (h0 : s.config.evalLatency = 0) (h : ¬ InputsHeld s) :
    fetchEntry s = .error .inputsChanged := by
  have h : s.holdsInputs = false := by rw [← Bool.not_eq_true, holdsInputs_iff]; exact h
  simp [fetchEntry, h0, h]

/-- Else it is the instruction of the snapshot's entry. -/
theorem fetchEntry_held {s : State} (h : s.config.evalLatency = 0 → InputsHeld s) :
    fetchEntry s =
      .ok (decodeEntry (s.scan.table.cfg s.scan.index) (s.scan.table.addr s.scan.index)) := by
  by_cases h0 : s.config.evalLatency = 0
  · simp [fetchEntry, h0, holdsInputs_iff.mpr (h h0), decodeOrRefuse, decode]
  · simp [fetchEntry, h0, decodeOrRefuse, decode]

/-! ### What a step can do -/

/-- The four ways a step completes. -/
theorem step_cases {s s' : State} (h : step s = .next s') :
    (s.scan.active = true ∧ (s.config.evalLatency = 0 → InputsHeld s) ∧
      s' = s.scanStep (s.scan.table.cfg s.scan.index) (resolve s.scan.table s.scan.index)) ∨
    (s.scan.active = false ∧ s.config.evalLatency = 0 ∧ s.inputs.stable = true ∧
      ∃ op, Op.ofCode s.inputs.reqOp = some op ∧ s' = s.check ⟨s.inputs.reqAddr, op⟩) ∨
    (s.scan.active = false ∧ s.config.evalLatency ≠ 0 ∧ s.inputs.reqValid = true ∧ s.inputs.stable = true ∧
      ∃ op, Op.ofCode s.inputs.reqOp = some op ∧ s' = s.tick.check ⟨s.inputs.reqAddr, op⟩) ∨
    (s.scan.active = false ∧ s.config.evalLatency ≠ 0 ∧ s.inputs.reqValid = false ∧ s' = s.tick) := by
  have request : ∀ u : State, runFetched (fetchRequest s) u = .next s' →
      s.inputs.stable = true ∧
      ∃ op, Op.ofCode s.inputs.reqOp = some op ∧ s' = u.check ⟨s.inputs.reqAddr, op⟩ := by
    intro u hu
    cases hst : s.inputs.stable with
    | false => simp [fetchRequest, hst, runFetched] at hu
    | true =>
      cases hop : Op.ofCode s.inputs.reqOp with
      | none => simp [fetchRequest, hst, runFetched, decodeOrRefuse, decode, hop] at hu
      | some op =>
        simp only [fetchRequest, hst, decodeOrRefuse, decode, hop, ↓reduceIte, runFetched,
          exec_requestInstr, Host.Outcome.next.injEq] at hu
        exact ⟨rfl, op, rfl, hu.symm⟩
  unfold step at h
  split at h
  · rename_i ha
    left
    have held : s.config.evalLatency = 0 → InputsHeld s := fun h0 =>
      Classical.byContradiction fun hn => by simp [fetchEntry_refused h0 hn, runFetched] at h
    simp only [fetchEntry_held held, runFetched, decodeEntry_scanStep, Host.Outcome.next.injEq] at h
    exact ⟨ha, held, h.symm⟩
  · rename_i ha
    simp only [Bool.not_eq_true] at ha
    split at h
    · rename_i h0
      exact .inr (.inl ⟨ha, h0, request s h⟩)
    · rename_i h0
      split at h
      · rename_i hv
        exact .inr (.inr (.inl ⟨ha, h0, hv, request s.tick h⟩))
      · rename_i hv
        exact .inr (.inr (.inr ⟨ha, h0, by simpa using hv, by simpa using h.symm⟩))

end Sys2Proof.Machine
end

