-- ==== Sys2Proof/Laws/PerInstr.lean ====
section
/-! SUPPORT. The family `OpcodeRow`: every instruction is encoded on its row's port, with its row's pattern under its
row's mask, as a well-formed value (spec/opcode_table.json; R46, R49, R53). -/

namespace Sys2Proof.Laws.OpcodeRow

/-- The instruction's word is a word of its row of the opcode table. -/
def Statement (i : Instr) : Prop :=
  (encode i).port = i.row.port ∧ (encode i).opcodeBits &&& i.row.mask = i.row.pattern ∧
    (encode i).wellFormed = true

/-- The mode field of an encoded config byte, under the table's mask. -/
theorem cfgByte_mask (m : Mode) (p : Attr) : (cfgByte m p).toNat &&& 0x18 = m.code.toNat * 8 := by
  obtain ⟨r, w, x, v⟩ := p
  revert v
  cases m <;> cases r <;> cases w <;> cases x <;> decide

theorem off (p : Attr) (a : Word) : Statement (.off p a) := ⟨rfl, cfgByte_mask .off p, rfl⟩
theorem tor (p : Attr) (a : Word) : Statement (.tor p a) := ⟨rfl, cfgByte_mask .tor p, rfl⟩
theorem na4 (p : Attr) (a : Word) : Statement (.na4 p a) := ⟨rfl, cfgByte_mask .na4 p, rfl⟩
theorem napot (p : Attr) (a : Word) : Statement (.napot p a) := ⟨rfl, cfgByte_mask .napot p, rfl⟩
theorem checkR (t : Word) : Statement (.checkR t) :=
  ⟨rfl, by simp [encode, PortWord.opcodeBits, Op.code, Instr.row, opcodeTable, Instr.rowIndex], rfl⟩
theorem checkW (t : Word) : Statement (.checkW t) :=
  ⟨rfl, by simp [encode, PortWord.opcodeBits, Op.code, Instr.row, opcodeTable, Instr.rowIndex], rfl⟩
theorem checkX (t : Word) : Statement (.checkX t) :=
  ⟨rfl, by simp [encode, PortWord.opcodeBits, Op.code, Instr.row, opcodeTable, Instr.rowIndex], rfl⟩

end Sys2Proof.Laws.OpcodeRow
end

