-- ==== Sys2Proof/Laws/Ports.lean ====
section
/-! SUPPORT. What the output wires carry, in terms of `State.portOut`, said once (R51, R52, R82). -/

namespace Sys2Proof.Machine

/-- At latency > 0 the wires carry the field `out`. -/
theorem portOut_later {s : State} (h : s.config.evalLatency ≠ 0) : s.portOut = s.out := by
  simp [State.portOut, h]

/-- At latency 0, between evaluations, the wires carry the answer to the inputs present. -/
theorem portOut_now {s : State} {op : Op} (h0 : s.config.evalLatency = 0) (ha : s.scan.active = false)
    (hst : s.inputs.stable = true) (hop : Op.ofCode s.inputs.reqOp = some op) :
    s.portOut = some (answer s.config s.inputs.table ⟨s.inputs.reqAddr, op⟩) := by
  simp [State.portOut, h0, holdsInputs_idle ha, hst, hop]

/-- At latency 0 there is no `res_valid`. -/
theorem resValid_now {s : State} (h : s.config.evalLatency = 0) : s.resValid = none := by
  simp [State.resValid, h]

/-- At latency > 0 `res_valid` says whether there is an output. -/
theorem resValid_later {s : State} (h : s.config.evalLatency ≠ 0) : s.resValid = some s.out.isSome := by
  simp [State.resValid, h]

/-- The result wires of an answer. -/
theorem resWires_answer {s : State} {c : Config} {T : Table} {q : Request} (h : s.portOut = some (answer c T q)) :
    s.resKind = some (evaluate T q).1.kind ∧ s.resIndex = some (evaluate T q).1.index := by
  simp [State.resKind, State.resIndex, h, answer, Output.make]

/-- The trace on the wires of an answer. -/
theorem traceOut_answer {s : State} {c : Config} {T : Table} {q : Request} (h : s.portOut = some (answer c T q)) :
    s.traceOut = if c.hasTrace then some (evaluate T q).2 else none := by
  simp [State.traceOut, h, answer, Output.make]

/-- Without a trace on the outputs no trace wire carries information. -/
theorem trWires_none {s : State} (h : s.traceOut = none) (i : Index) :
    s.trValid i = none ∧ s.trMatch i = none ∧ s.trBase i = none ∧ s.trLimit i = none := by
  simp [State.trValid, State.trMatch, State.trBase, State.trLimit, h]

/-- With nothing on the outputs no wire but `res_valid` carries information. -/
theorem wiresSilent_of_none {s : State} (h : s.portOut = none) : WiresSilent s :=
  ⟨by simp [State.resKind, h], by simp [State.resIndex, h], trWires_none (by simp [State.traceOut, h])⟩

end Sys2Proof.Machine
end

