-- ==== Sys2Proof/Machine/Script.lean ====
section
/-! DEFINITION. The meaning of R54's notation for test programs: a table, a list of requests, and the list of outputs
that is the program's end state.  (The host that would carry it out is outside the block, R5.) -/

namespace Sys2Proof.Machine

/-- The table with the entry of one line (R54). -/
def Line.load (T : Table) : Line → Table
  | .entry i cfg addr => T.setIfInBounds i ⟨BitVec.ofNat 8 cfg, BitVec.ofNat 32 addr⟩
  | .check _ _ => T

/-- The program's table: "Every entry not named by an `entry` line is `cfg=0x00 addr=0x00000000`" (R54). -/
def scriptTable (ls : List Line) : Table := ls.foldl Line.load Table.zero

/-- The requests of the `check` lines, in order (R54). -/
def scriptRequests (ls : List Line) : List Request :=
  ls.filterMap fun l => match l with
    | .entry _ _ _ => none
    | .check op addr => (Op.ofCode (BitVec.ofNat 2 op)).map fun o => ⟨BitVec.ofNat 32 addr, o⟩

/-- "The end state of a program is the list of results, one per `check`, with their traces" (R54). -/
def scriptOutputs (ls : List Line) : List (AccessResult × List TraceRecord) :=
  (scriptRequests ls).map (evaluate (scriptTable ls))

/-- The lowest `n` hexadecimal digits of a number, the most significant first. -/
def hexDigits : Nat → Nat → List Char
  | 0, _ => []
  | n + 1, v => hexDigits n (v / 16) ++ [("0123456789ABCDEF".toList)[v % 16]?.getD '0']

/-- The encoding of a `check` line as R54 writes it: the two bits of `req_op`, a colon, eight hexadecimal digits. -/
def Request.text (q : Request) : List Char :=
  [if q.op.code.getLsbD 1 then '1' else '0', if q.op.code.getLsbD 0 then '1' else '0', ':']
    ++ hexDigits 8 q.t.toNat

end Sys2Proof.Machine
end

