-- ==== Sys2Proof/Tests/Slice0.lean ====
section
/-! SUPPORT. Tests, with the source of each expected value in its comment, and a witness for every statement with
hypotheses. -/

namespace Sys2Proof.Tests

open Sys2Proof.Machine

/-! ### Helpers -/

/-- A table with the given entries, every other entry Off and 0 (R54). -/
def tbl (l : List (Nat × Byte × Word)) : Table :=
  l.foldl (fun T e => T.setIfInBounds e.1 ⟨e.2.1, e.2.2⟩) Table.zero

/-- A state at latency L, with the given table, target and operation code presented with `req_valid = 1`, stable. -/
def st (L : Nat) (T : Table) (t : Word) (op : BitVec 2) : State :=
  State.atReset ⟨L, true⟩ ⟨T, t, op, true, true⟩

/-- The same in the middle of an evaluation, at entry i. -/
def mid (L : Nat) (T : Table) (t : Word) (i : Index) : State :=
  { st L T t 0 with scan := ⟨true, i, ⟨t, .read⟩, T, []⟩ }

/-- Some output, for pipelines. -/
def out0 : Output := ⟨.faultUnmapped, none⟩

theorem firstStop_of {T : Table} {t : Word} {i : Index}
    (h : (overflows T i || hits T t i) = true ∧ ∀ j, j < i → (overflows T j || hits T t j) = false) :
    FirstStop T t i :=
  ⟨stops_iff.mp h.1, fun j hj hs => by have := h.2 j hj; rw [stops_iff.mpr hs] at this; simp at this⟩

theorem noStop_of {T : Table} {t : Word} (h : ∀ j, (overflows T j || hits T t j) = false) (j : Index) :
    ¬ Stops T t j := fun hs => by have := h j; rw [stops_iff.mpr hs] at this; simp at this

/-! ### Well-formedness: an ill-formed term for each check, refused -/

theorem test_illformed_request : (PortWord.request 0b11#2 0#32).wellFormed = false := by decide
theorem test_illformed_index : (Line.entry 64 0 0).wellFormed = false := by decide
theorem test_illformed_cfg : (Line.entry 0 256 0).wellFormed = false := by decide
theorem test_illformed_entry_addr : (Line.entry 0 0 0x100000000).wellFormed = false := by decide
theorem test_illformed_op : (Line.check 3 0).wellFormed = false := by decide
theorem test_illformed_check_addr : (Line.check 0 0x100000000).wellFormed = false := by decide
theorem test_illformed_order : programWellFormed [.check 0 0, .entry 0 0 0] = false := by decide
theorem test_illformed_twice : programWellFormed [.entry 1 0 0, .entry 1 8 0] = false := by decide
theorem test_illformed_line_in_program : programWellFormed [.entry 64 0 0] = false := by decide
theorem test_wellformed_program : programWellFormed [.entry 63 0xFF 0xFFFFFFFF, .check 2 0xFFFFFFFF] = true := by
  decide

/-! ### Decoding: words written out from R45, R46, R49 -/

/-- bits 7..0 = reserved 000, A 00, X 1, W 1, R 1 -/
theorem test_decode_off : decode (.entry 0b00000111#8 0x1000#32) = .ok (.off ⟨true, true, true, 0⟩ 0x1000#32) := by
  decide
/-- reserved 111, A 01, X 0, W 0, R 1 -/
theorem test_decode_tor : decode (.entry 0b11101001#8 0x1000#32) = .ok (.tor ⟨true, false, false, 7⟩ 0x1000#32) := by
  decide
/-- reserved 000, A 10, X 0, W 1, R 0 -/
theorem test_decode_na4 : decode (.entry 0b00010010#8 0x100#32) = .ok (.na4 ⟨false, true, false, 0⟩ 0x100#32) := by
  decide
/-- reserved 010, A 11, X 1, W 0, R 0 -/
theorem test_decode_napot :
    decode (.entry 0b01011100#8 0x80000007#32) = .ok (.napot ⟨false, false, true, 2⟩ 0x80000007#32) := by decide
/-- DC5 -/
theorem test_decode_checkR : decode (.request 0b00#2 0x8000#32) = .ok (.checkR 0x8000#32) := by decide
/-- DC6 -/
theorem test_decode_checkW : decode (.request 0b01#2 0x80000004#32) = .ok (.checkW 0x80000004#32) := by decide
/-- DC7 -/
theorem test_decode_checkX : decode (.request 0b10#2 0xFFFFFFFF#32) = .ok (.checkX 0xFFFFFFFF#32) := by decide
/-- DC8 -/
theorem test_decode_reserved : decode (.request 0b11#2 0#32) = .error .reservedOperation := by decide

/-- No word of one port matches two rows of the opcode table. -/
theorem test_rows_disjoint : opcodeTable.Pairwise fun a b =>
    a.port = b.port → a.pattern &&& (a.mask &&& b.mask) ≠ b.pattern &&& (a.mask &&& b.mask) := by decide

/-- The rows' bare words, with notes/assumptions/8.md's reading of 0x00. -/
theorem test_table_words :
    [0x00, 0x08, 0x10, 0x18, 0x1, 0x2].map (decodeTableWord 8) =
      [some (.off ⟨false, false, false, 0⟩ 0), some (.tor ⟨false, false, false, 0⟩ 0),
       some (.na4 ⟨false, false, false, 0⟩ 0), some (.napot ⟨false, false, false, 0⟩ 0), some (.checkW 0),
       some (.checkX 0)] ∧
    decodeTableWord 40 0x0 = some (.checkR 0) ∧ decodeTableWord 40 0x3 = none := by decide

/-- The next step runs the word placed where it fetches, whatever request was presented. -/
theorem test_fetchword_reserved_presented : step ((st 0 (tbl []) 5 3).withFetchWord 8 0x18) =
    exec (.napot ⟨false, false, false, 0⟩ 0) ((st 0 (tbl []) 5 3).withFetchWord 8 0x18) := rfl

theorem test_fetchword_na4 : step (State.reset.withFetchWord 8 0x10) =
    exec (.na4 ⟨false, false, false, 0⟩ 0) (State.reset.withFetchWord 8 0x10) := rfl

theorem test_fetchword_checkW : step (State.reset.withFetchWord 8 0x1) =
    exec (.checkW 0) (State.reset.withFetchWord 8 0x1) := rfl

/-! ### The resolver: vectors of spec/95_test_vectors.md -/

/-- DR2 -/
theorem test_off_disabled : resolve (tbl [(7, 0xE7, 0xFFFFFFFF)]) 7 = .disabled := by decide
/-- DR9: the raw NAPOT word before it is the base -/
theorem test_tor_raw_word : resolve (tbl [(0, 0x1F, 0x80000007), (1, 0x0F, 0x90000000)]) 1 =
    .range 0x80000007#32 0x90000000#32 := by decide
/-- DR13: a limit of exactly 2^32 overflows -/
theorem test_na4_overflow : resolve (tbl [(4, 0x17, 0xFFFFFFFC)]) 4 = .overflow 0xFFFFFFFC#32 0x100000000 := by
  decide
/-- DR18: the base is aligned down -/
theorem test_napot_aligned : resolve (tbl [(5, 0x1F, 0x0000100D)]) 5 = .range 0x00001008#32 0x00001010#32 := by
  decide
/-- DR27: count 32 -/
theorem test_napot_all_ones : resolve (tbl [(5, 0x1F, 0xFFFFFFFF)]) 5 = .overflow 0#32 0x400000000 := by
  decide
/-- Section 2.2 of the vectors -/
theorem test_ctz1 : [0x80000007#32, 0x6#32, 0xFFFFFFFF#32, 0x7FFFFFFF#32, 0x20003FFF#32].map ctz1 =
    [3, 0, 32, 31, 14] := by decide

/-! ### The evaluator: vectors of spec/95_test_vectors.md -/

/-- DE17: a miss in the trace, then a grant -/
theorem test_first_match : evaluate (tbl [(2, 0x10, 0x8000), (5, 0x1F, 0x8003)]) ⟨0x8004#32, .read⟩ =
    (.granted 5, [⟨2, .na4, 0x10, 0x8000, 0x8004, false⟩, ⟨5, .napot, 0x1F, 0x8000, 0x8010, true⟩]) := by
  decide
/-- DE20: an overflowing entry reached -/
theorem test_overflow_reached : evaluate (tbl [(0, 0x1F, 0x1), (1, 0x1F, 0xFFFFFFFF)]) ⟨0x8#32, .read⟩ =
    (.rangeOverflow 1, [⟨0, .napot, 0x1F, 0x0, 0x8, false⟩]) := by decide

/-- P3's checks (its results, its traces being those of the rules) -/
theorem test_script_P3 :
    (scriptOutputs [.entry 0 0x09 0x1000, .entry 1 0x0B 0x3000, .entry 2 0x00 0x8000, .entry 3 0x0F 0x9000,
      .check 1 0xFFF, .check 1 0x1000, .check 0 0x2FFF, .check 0 0x3000, .check 2 0x8000, .check 2 0x8FFF,
      .check 2 0x9000]).map Prod.fst =
    [.fault 0, .granted 1, .granted 1, .faultUnmapped, .granted 3, .granted 3, .faultUnmapped] := by decide

/-- DC6's text -/
theorem test_request_text : Request.text ⟨0x80000004#32, .write⟩ = "01:80000004".toList := by decide

/-! ### The instructions, one step each -/

/-- OFF: the scan goes on without a record (R57, R79). -/
theorem test_exec_off : step (mid 0 (tbl [(7, 0x07, 0x1000)]) 0x1000 7) =
    .next { mid 0 (tbl [(7, 0x07, 0x1000)]) 0x1000 7 with
      scan := ⟨true, 8, ⟨0x1000, .read⟩, tbl [(7, 0x07, 0x1000)], []⟩ } := rfl

/-- What a step leaves on the outputs. -/
def outOf (s : State) : Option (Option Output) :=
  match step s with
  | .next s' => some s'.out
  | .fault _ => none
  | .refused _ => none

/-- TOR, S6.4's range and verdict -/
theorem test_exec_tor : outOf (mid 0 (tbl [(0, 0x09, 0x9000)]) 0x8000 0) =
    some (some ⟨.granted 0, some [⟨0, .tor, 0x09, 0, 0x9000, true⟩]⟩) := by decide
/-- NA4, DE13: W without R denies Read -/
theorem test_exec_na4 : outOf (mid 0 (tbl [(0, 0x12, 0x100)]) 0x100 0) =
    some (some ⟨.fault 0, some [⟨0, .na4, 0x12, 0x100, 0x104, true⟩]⟩) := by decide
/-- NAPOT, P4's overflowing entry -/
theorem test_exec_napot : outOf (mid 0 (tbl [(1, 0x1F, 0x3FFFFFFF)]) 0x104 1) =
    some (some ⟨.rangeOverflow 1, some []⟩) := by decide
/-- An Off entry 63 ends the scan (R29, R73). -/
theorem test_exec_last : outOf (mid 0 (tbl []) 0 63) = some (some ⟨.faultUnmapped, some []⟩) := by decide
/-- CHECK.R, DE6 -/
theorem test_exec_checkR : outOf (st 0 (tbl [(0, 0x11, 0x8000)]) 0x8003 0b00) =
    some (some ⟨.granted 0, some [⟨0, .na4, 0x11, 0x8000, 0x8004, true⟩]⟩) := by decide
/-- CHECK.W, S7 -/
theorem test_exec_checkW : outOf (st 0 (tbl [(0, 0x1F, 0x80000007)]) 0x80000004 0b01) =
    some (some ⟨.granted 0, some [⟨0, .napot, 0x1F, 0x80000000, 0x80000020, true⟩]⟩) := by decide
/-- CHECK.X, DE5 -/
theorem test_exec_checkX : outOf (st 0 (tbl [(0, 0x11, 0x8000)]) 0x8000 0b10) =
    some (some ⟨.fault 0, some [⟨0, .na4, 0x11, 0x8000, 0x8004, true⟩]⟩) := by decide
/-- A block without the trace output (R81) -/
theorem test_no_trace : outOf (State.atReset ⟨0, false⟩ ⟨tbl [(0, 0x11, 0x8000)], 0x8000, 0, false, true⟩) =
    some (some ⟨.granted 0, none⟩) := by decide

/-! ### Witnesses: a state and operands that meet all the hypotheses of a statement, for each of its clauses -/

theorem witness_EncodeDecodeRoundTrip : ∃ w i, decode w = .ok i := ⟨.request 0 0, .checkR 0, rfl⟩

theorem witness_ConfigByteFields :
    (0xE7#8 &&& 0x18#8 = 0x00#8) ∧ (0xEF#8 &&& 0x18#8 = 0x08#8) ∧ (0x10#8 &&& 0x18#8 = 0x10#8) ∧
    (0xFF#8 &&& 0x18#8 = 0x18#8) := by decide

theorem witness_OffEntryIsDisabled : ∃ (T : Table) (i j : Index), T.cfg i &&& 0x18#8 = 0x00#8 ∧
    j.val = i.val + 1 ∧ T.cfg j &&& 0x18#8 = 0x08#8 :=
  ⟨tbl [(62, 0xE7, 0x1000), (63, 0x0F, 0x2000)], 62, 63, by decide⟩

theorem witness_TorRangeFromPreviousWord :
    (∃ (T : Table) (i : Index), T.cfg i &&& 0x18#8 = 0x08#8 ∧ i.val = 0 ∧ T.addr i = 0) ∧
    ∃ (T : Table) (i j : Index), T.cfg i &&& 0x18#8 = 0x08#8 ∧ i.val = j.val + 1 ∧ T.addr i ≤ T.addr j :=
  ⟨⟨tbl [(0, 0x08, 0)], 0, by decide⟩, tbl [(62, 0, 0x3000), (63, 0x0F, 0x3000)], 63, 62, by decide⟩

theorem witness_Na4RangeIsFourBytes :
    (∃ (T : Table) (i : Index), T.cfg i &&& 0x18#8 = 0x10#8 ∧ (T.addr i).toNat < 0xFFFFFFFC) ∧
    ∃ (T : Table) (i : Index), T.cfg i &&& 0x18#8 = 0x10#8 ∧ 0xFFFFFFFC ≤ (T.addr i).toNat :=
  ⟨⟨tbl [(4, 0x17, 0xFFFFFFFB)], 4, by decide⟩, tbl [(4, 0x17, 0xFFFFFFFC)], 4, by decide⟩

/-- Even words on either side of the overflow edge. -/
theorem witness_NapotRangeFromTrailingOnes_even :
    (∃ (T : Table) (i : Index), T.cfg i &&& 0x18#8 = 0x18#8 ∧ (T.addr i).getLsbD 0 = false ∧
      (T.addr i).toNat < 0xFFFFFFFC) ∧
    ∃ (T : Table) (i : Index), T.cfg i &&& 0x18#8 = 0x18#8 ∧ (T.addr i).getLsbD 0 = false ∧
      0xFFFFFFFC ≤ (T.addr i).toNat :=
  ⟨⟨tbl [(5, 0x1F, 0xFFFFFFFA)], 5, by decide⟩, tbl [(5, 0x1F, 0xFFFFFFFC)], 5, by decide⟩

/-- Runs of 1, 29 and 32 trailing 1 bits, and both outcomes (DR17, DR23, DR24, DR27). -/
theorem witness_NapotRangeFromTrailingOnes_odd :
    ∀ p ∈ [((0x1#32 : Word), 1), (0x1FFFFFFF#32, 29), (0x9FFFFFFF#32, 29), (0xFFFFFFFF#32, 32)],
      (tbl [(5, 0x1F, p.1)]).cfg 5 &&& 0x18#8 = 0x18#8 ∧ 1 ≤ p.2 ∧ p.2 ≤ 32 ∧
      (∀ k, k < p.2 → ((tbl [(5, 0x1F, p.1)]).addr 5).getLsbD k = true) ∧
      (p.2 < 32 → ((tbl [(5, 0x1F, p.1)]).addr 5).getLsbD p.2 = false) := by decide

theorem witness_Ctz1CountsTrailingOnes :
    ∃ a : Word, 0 < ctz1 a ∧ ctz1 a < 32 := ⟨0x7FFFFFFF#32, by decide⟩

theorem witness_OverflowingEntriesExactly_even : ∃ (T : Table) (i j k : Index),
    (T.cfg i &&& 0x18#8 = 0x10#8 ∧ 0xFFFFFFFC ≤ (T.addr i).toNat) ∧
    (T.cfg j &&& 0x18#8 = 0x18#8 ∧ T.addr j = 0xFFFFFFFC#32) ∧ T.cfg k &&& 0x18#8 = 0x18#8 ∧ T.addr k = 0xFFFFFFFE#32 :=
  ⟨tbl [(0, 0x10, 0xFFFFFFFC), (1, 0x18, 0xFFFFFFFC), (2, 0x18, 0xFFFFFFFE)], 0, 1, 2, by decide⟩

theorem witness_OverflowingEntriesExactly :
    (∃ (T : Table) (i : Index), T.cfg i &&& 0x18#8 = 0x18#8 ∧ 30 ≤ ctz1 (T.addr i)) ∧
    ∃ (T : Table) (i : Index), T.cfg i &&& 0x18#8 = 0x18#8 ∧ 1 ≤ ctz1 (T.addr i) ∧ ctz1 (T.addr i) ≤ 29 ∧
      Overflows T i :=
  ⟨⟨tbl [(5, 0x1F, 0x3FFFFFFF)], 5, by decide⟩,
    tbl [(5, 0x1F, 0x9FFFFFFF)], 5, by decide, by decide, by decide,
    overflows_iff.mp (by decide)⟩

theorem witness_Na4AndNapotAgreeOnEvenWords : ∃ (T T' : Table) (i : Index), T.addr i = T'.addr i ∧
    (T.addr i).getLsbD 0 = false ∧ T.cfg i &&& 0x18#8 = 0x10#8 ∧ T'.cfg i &&& 0x18#8 = 0x18#8 :=
  ⟨tbl [(0, 0x10, 0xFFFFFFFE)], tbl [(0, 0x18, 0xFFFFFFFE)], 0, by decide⟩

theorem witness_RangesAndTheirWords :
    (∃ (T : Table) (i : Index) (b l : Word), resolve T i = .range b l ∧ T.cfg i &&& 0x18#8 = 0x10#8) ∧
    (∃ (T : Table) (i : Index) (b l : Word), resolve T i = .range b l ∧ T.cfg i &&& 0x18#8 = 0x18#8 ∧
      (T.addr i).getLsbD 0 = false) ∧
    (∃ (T : Table) (i : Index) (b l : Word), resolve T i = .range b l ∧ T.cfg i &&& 0x18#8 = 0x18#8 ∧
      (T.addr i).getLsbD 0 = true) ∧
    ∃ (T : Table) (i : Index) (b l : Word), resolve T i = .range b l ∧ T.cfg i &&& 0x18#8 = 0x08#8 :=
  ⟨⟨tbl [(0, 0x10, 0x8000)], 0, 0x8000#32, 0x8004#32, by decide⟩,
    ⟨tbl [(0, 0x18, 0x8000)], 0, 0x8000#32, 0x8004#32, by decide⟩,
    ⟨tbl [(0, 0x18, 0x8001)], 0, 0x8000#32, 0x8008#32, by decide⟩,
    tbl [(0, 0x08, 0x8000)], 0, 0x0#32, 0x8000#32, by decide⟩

theorem witness_ReservedConfigBitsIgnored : ∃ T T' : Table, T ≠ T' ∧
    ∀ i, T.addr i = T'.addr i ∧ T.cfg i &&& 0x1F#8 = T'.cfg i &&& 0x1F#8 :=
  ⟨tbl [(0, 0x09, 0x1000)], tbl [(0, 0xE9, 0x1000)], by decide⟩

/-- A table whose entry 1 is the first to cover 0x8004, after a miss at entry 0. -/
def twoEntries : Table := tbl [(0, 0x11, 0x8000), (1, 0x1F, 0x8003)]

theorem twoEntries_first : FirstStop twoEntries 0x8004#32 1 ∧ Covers twoEntries 0x8004#32 1 :=
  ⟨firstStop_of (by decide), hits_iff.mp (by decide)⟩

/-- A table whose entry 1 is the first to end the scan for 0x104, by overflowing (P4). -/
def overflowTable : Table := tbl [(0, 0x13, 0x100), (1, 0x1F, 0x3FFFFFFF)]

theorem overflowTable_first : FirstStop overflowTable 0x104#32 1 ∧ Overflows overflowTable 1 :=
  ⟨firstStop_of (by decide), overflows_iff.mp (by decide)⟩

theorem witness_OnlyTheOperationsBitIsRead :
    (∃ T t i, FirstStop T t i ∧ Covers T t i) ∧
    ∃ T T' : Table, T ≠ T' ∧ (∀ i, T.addr i = T'.addr i ∧ T.cfg i &&& 0x18#8 = T'.cfg i &&& 0x18#8) ∧
      ∀ i, (T.cfg i).getLsbD 0 = (T'.cfg i).getLsbD 0 :=
  ⟨⟨_, _, _, twoEntries_first⟩, tbl [(0, 0x11, 0x1000)], tbl [(0, 0x17, 0x1000)], by decide⟩

/-- `[0, 0xFFFFFFFF)` does not cover the top byte (DE21). -/
theorem top_noStop : ∀ i, ¬ Stops (tbl [(0, 0x0F, 0xFFFFFFFF)]) 0xFFFFFFFF#32 i := noStop_of (by decide +kernel)

/-- For CHECK.R, CHECK.W and CHECK.X alike: the three clauses. -/
theorem witness_CheckReadWriteExecuteAnswers :
    (∃ (s : State) (t : Word) (i : Index), FirstStop s.inputs.table t i ∧ Covers s.inputs.table t i) ∧
    (∃ (s : State) (t : Word) (i : Index), FirstStop s.inputs.table t i ∧ Overflows s.inputs.table i) ∧
    ∃ (s : State) (t : Word), ∀ i, ¬ Stops s.inputs.table t i :=
  ⟨⟨st 0 twoEntries 0 0, 0x8004#32, 1, twoEntries_first⟩, ⟨st 0 overflowTable 0 0, 0x104#32, 1, overflowTable_first⟩,
    st 0 (tbl [(0, 0x0F, 0xFFFFFFFF)]) 0 0, 0xFFFFFFFF#32, top_noStop⟩

theorem witness_UnmatchedIsUnmapped :
    (∃ (T : Table) (q : Request), ∀ i, ¬ Stops T q.t i) ∧ ∃ T : Table, ∀ i, T.cfg i &&& 0x18#8 = 0x00#8 :=
  ⟨⟨tbl [(0, 0x0F, 0xFFFFFFFF)], ⟨0xFFFFFFFF#32, .read⟩, top_noStop⟩,
    tbl [(0, 0xE7, 0xDEADBEEF)], by decide⟩

/-- S2.1 -/
theorem witness_FirstMatchWins :
    (∃ (T : Table) (q : Request) (i : Index), FirstStop T q.t i ∧ Overflows T i) ∧
    (∃ (T : Table) (q : Request) (i : Index), FirstStop T q.t i ∧ Covers T q.t i) ∧
    ∃ (T : Table) (q : Request) (i j : Index), i < j ∧ (∀ k, k < i → ¬ Stops T q.t k) ∧ Covers T q.t i ∧
      Covers T q.t j ∧ permitted (T.cfg i) q.op = false ∧ permitted (T.cfg j) q.op = true :=
  ⟨⟨_, ⟨_, .read⟩, _, overflowTable_first⟩, ⟨_, ⟨_, .read⟩, _, twoEntries_first⟩,
    tbl [(1, 0x10, 0x8000), (3, 0x17, 0x8000)], ⟨0x8000#32, .read⟩, 1, 3, by decide,
    (firstStop_of (by decide)).2, hits_iff.mp (by decide), hits_iff.mp (by decide),
    by decide, by decide⟩

theorem witness_ScanStopsAtTheFirstMatch :
    (∃ (T : Table) (q : Request) (i : Index), FirstStop T q.t i ∧ Covers T q.t i ∧ permitted (T.cfg i) q.op = true) ∧
    (∃ (T : Table) (q : Request) (i : Index), FirstStop T q.t i ∧ Covers T q.t i ∧ permitted (T.cfg i) q.op = false) ∧
    ∃ (T T' : Table) (q : Request) (i : Index), T ≠ T' ∧
      FirstStop T q.t i ∧ (∀ j, j ≤ i → T.cfg j = T'.cfg j) ∧ ∀ j, j ≤ i → T.addr j = T'.addr j :=
  ⟨⟨twoEntries, ⟨0x8004#32, .read⟩, 1, twoEntries_first.1, twoEntries_first.2, by decide⟩,
    ⟨tbl [(0, 0x10, 0x8000)], ⟨0x8000#32, .read⟩, 0, firstStop_of (by decide), hits_iff.mp (by decide), by decide⟩,
    twoEntries, tbl [(0, 0x11, 0x8000), (1, 0x1F, 0x8003), (2, 0x1F, 0xFFFFFFFF)], ⟨0x8004#32, .read⟩, 1,
    by decide, twoEntries_first.1, by decide, by decide⟩

theorem witness_TraceHasExaminedRanges : ∃ (T : Table) (q : Request), (evaluate T q).2 ≠ [] :=
  ⟨twoEntries, ⟨0x8004#32, .read⟩, by decide⟩

theorem witness_TraceNeverChangesTheResult :
    (∃ s s', step s = .next s') ∧ ∃ s r, step s = .refused r :=
  ⟨⟨st 1 twoEntries 0x8004 1, _, rfl⟩, st 1 twoEntries 0x8004 3, .reservedOperation, rfl⟩

theorem witness_TraceWires : ∃ (s : State) (T : Table) (q : Request), s.config.hasTrace = true ∧
    s.portOut = some (answer s.config T q) :=
  ⟨st 0 twoEntries 0x8004 0, twoEntries, ⟨0x8004, .read⟩, rfl, rfl⟩

/-- Inside an evaluation, at entry 0 and at entry 63. -/
theorem witness_OffIsSkipped : ∀ i ∈ [(0 : Index), 63], ∃ s : State, s.scan.index = i ∧ s.scan.active = true :=
  fun i _ => ⟨mid 0 (tbl []) 0 i, rfl, rfl⟩

/-- Every `mid` state is inside an evaluation. -/
theorem mid_active (L : Nat) (T : Table) (t : Word) (i : Index) : (mid L T t i).scan.active = true := rfl

/-- Every `mid` state holds its inputs. -/
theorem mid_held (L : Nat) (T : Table) (t : Word) (i : Index) : InputsHeld (mid L T t i) :=
  ⟨rfl, fun _ => ⟨rfl, rfl, rfl⟩⟩

theorem witness_ModeInstructionsDoNotReadWhetherAScanIsActive : ∃ s t : State, s ≠ t ∧
    t = { s with scan := { s.scan with active := true } } :=
  ⟨State.reset, _, fun h => Bool.noConfusion (congrArg (fun x : State => x.scan.active) h), rfl⟩

/-- The base of a TOR entry under examination in `mid`, for the entries 0 and 1. -/
theorem torHypotheses (t : Word) :
    ((mid 0 (tbl []) t 0).scan.index.val = 0 → (0 : Word) = 0) ∧
    (∀ j : Index, (mid 0 (tbl []) t 0).scan.index.val = j.val + 1 → (0 : Word) = (mid 0 (tbl []) t 0).scan.table.addr j) ∧
    ((mid 0 (tbl [(0, 0, 0x1000)]) t 1).scan.index.val = 0 → 0x1000#32 = 0) ∧
    ∀ j : Index, (mid 0 (tbl [(0, 0, 0x1000)]) t 1).scan.index.val = j.val + 1 →
      0x1000#32 = (mid 0 (tbl [(0, 0, 0x1000)]) t 1).scan.table.addr j := by
  refine ⟨fun _ => rfl, fun j h => absurd h (by simp [mid]), fun h => by simp [mid] at h, fun j h => ?_⟩
  have h : j = 0 := Fin.ext (by simp [mid] at h; omega)
  subst h
  show 0x1000#32 = (tbl [(0, 0, 0x1000)]).addr 0
  decide

/-- With those bases: a hit at entry 0, a hit at the last byte of entry 1, and a miss at its limit. -/
theorem witness_TorIsExamined :
    (0#32 ≤ (mid 0 (tbl []) 0 0).scan.req.t ∧ (mid 0 (tbl []) 0 0).scan.req.t < 1#32) ∧
    (0x1000#32 ≤ (mid 0 (tbl [(0, 0, 0x1000)]) 0x1FFF 1).scan.req.t ∧
      (mid 0 (tbl [(0, 0, 0x1000)]) 0x1FFF 1).scan.req.t < 0x2000#32) ∧
    ¬ (0x1000#32 ≤ (mid 0 (tbl [(0, 0, 0x1000)]) 0x2000 1).scan.req.t ∧
      (mid 0 (tbl [(0, 0, 0x1000)]) 0x2000 1).scan.req.t < 0x2000#32) := by decide

/-- NA4 from 0xFFFFFFFC on; the largest range with a hit; and a miss at its limit. -/
theorem witness_Na4IsExamined :
    0xFFFFFFFC ≤ (0xFFFFFFFC#32 : Word).toNat ∧
    ((0xFFFFFFFF#32 : Word).toNat = (0xFFFFFFFB#32 : Word).toNat + 4 ∧
      0xFFFFFFFB#32 ≤ (mid 0 (tbl []) 0xFFFFFFFE 0).scan.req.t ∧
      (mid 0 (tbl []) 0xFFFFFFFE 0).scan.req.t < 0xFFFFFFFF#32) ∧
    ¬ (0xFFFFFFFB#32 ≤ (mid 0 (tbl []) 0xFFFFFFFF 0).scan.req.t ∧
      (mid 0 (tbl []) 0xFFFFFFFF 0).scan.req.t < 0xFFFFFFFF#32) := by decide

/-- NAPOT words, even and odd, with their size and base: a hit, a miss at the limit, an overflow. -/
theorem witness_NapotIsExamined :
    (∀ p ∈ [((0x12345672#32 : Word), 4, 0x12345672), (0x80000007#32, 32, 0x80000000), (0x3FFFFFFF#32, 2 ^ 32, 0)],
      (p.1.getLsbD 0 = false → p.2.1 = 4 ∧ p.2.2 = p.1.toNat) ∧
      (p.1.getLsbD 0 = true → p.2.1 = 2 ^ (ctz1 p.1 + 2) ∧ p.2.2 = p.1.toNat / p.2.1 * p.2.1)) ∧
    0xFFFFFFFF < 0 + 2 ^ 32 ∧
    ((0x80000000#32 : Word).toNat = 0x80000000 ∧ (0x80000020#32 : Word).toNat = 0x80000000 + 32 ∧
      0x80000000#32 ≤ (mid 0 (tbl []) 0x8000001F 0).scan.req.t ∧
      (mid 0 (tbl []) 0x8000001F 0).scan.req.t < 0x80000020#32) ∧
    ¬ (0x80000000#32 ≤ (mid 0 (tbl []) 0x80000020 0).scan.req.t ∧
      (mid 0 (tbl []) 0x80000020 0).scan.req.t < 0x80000020#32) := by decide

theorem witness_StepRunsTheEntryUnderExamination : ∃ (s : State) (i : Instr), s.scan.active = true ∧
    (s.config.evalLatency = 0 → InputsHeld s) ∧
    decode (.entry (s.scan.table.cfg s.scan.index) (s.scan.table.addr s.scan.index)) = .ok i :=
  ⟨mid 0 twoEntries 0x8004 1, .napot ⟨true, true, true, 0⟩ 0x8003, rfl, fun _ => mid_held _ _ _ _, by decide⟩

/-- At latency 0 a table changed between two steps of an evaluation is refused (R100), and the same table is not. -/
theorem test_table_changed_inside_evaluation :
    step ((mid 0 twoEntries 0x8004 1).present ⟨tbl [], 0x8004, 0, true, true⟩) = .refused .inputsChanged ∧
    outOf ((mid 0 twoEntries 0x8004 1).present ⟨twoEntries, 0x8004, 0, true, true⟩) ≠ none := ⟨rfl, by decide⟩

/-- At latency 0 and at latency > 0; the clause without `req_valid` has ClockEdgeWithoutRequestOnlyTicks's witness. -/
theorem witness_StepRunsTheRequestPresented : ∀ L ∈ [0, 3], ∃ (s : State) (i : Instr), s.scan.active = false ∧
    s.inputs.stable = true ∧ decode (.request s.inputs.reqOp s.inputs.reqAddr) = .ok i ∧
    s.config.evalLatency = L ∧ s.inputs.reqValid = true :=
  fun L _ => ⟨st L twoEntries 0x8004 2, .checkX 0x8004, rfl, rfl, rfl, rfl, rfl⟩

/-- An empty pipeline, an answer due at this edge, and one that waits. -/
theorem witness_ClockEdgeWithoutRequestOnlyTicks : ∀ pipe ∈ [[], [⟨1, out0⟩, ⟨3, out0⟩], [⟨2, out0⟩, ⟨3, out0⟩]],
    ∃ s : State, s.scan.active = false ∧ s.config.evalLatency ≠ 0 ∧ s.inputs.reqValid = false ∧ s.pipe = pipe :=
  fun pipe _ => ⟨⟨⟨3, true⟩, Inputs.zero, Scan.idle, pipe, none⟩, rfl, Nat.succ_ne_zero 2, rfl, rfl⟩

theorem witness_StepNeverWritesTheInputs : ∃ s s', step s = .next s' := ⟨mid 2 twoEntries 0x8004 0, _, rfl⟩

/-- Both directions: states under the contract between evaluations and inside one, and states that break it: the code
0b11, and another table inside an evaluation at latency 0. -/
theorem witness_StepCompletesExactlyUnderTheHostContract :
    HostContract (st 0 twoEntries 0x8004 2) ∧ HostContract (st 3 twoEntries 0x8004 2) ∧
    HostContract (mid 0 twoEntries 0x8004 1) ∧ ¬ HostContract (st 3 twoEntries 0x8004 3) ∧
    ¬ HostContract ((mid 0 twoEntries 0x8004 1).present ⟨tbl [], 0x8004, 0, true, true⟩) :=
  ⟨⟨fun _ => ⟨rfl, fun h => Bool.noConfusion h⟩, fun _ => by decide⟩,
    ⟨fun _ => ⟨rfl, fun h => Bool.noConfusion h⟩, fun _ => by decide⟩,
    ⟨fun _ => mid_held _ _ _ _, fun h => Bool.noConfusion h.1⟩, fun h => h.2 ⟨rfl, .inr rfl⟩ rfl,
    fun h => absurd ((h.1 (.inr ⟨rfl, rfl⟩)).2 rfl).1 (by decide)⟩

theorem witness_ReservedOperationIsRefused : ∀ L ∈ [0, 3], ∃ s : State, s.config.evalLatency = L ∧ Samples s ∧
    s.inputs.stable = true ∧ s.inputs.reqOp = 0b11#2 :=
  fun L _ => ⟨st L twoEntries 0x8004 3, rfl, ⟨rfl, .inr rfl⟩, rfl, rfl⟩

theorem witness_InputStability :
    (∃ s : State, Samples s ∧ ¬ InputsHeld s) ∧
    (∃ s : State, OwesStability s ∧ ¬ Samples s ∧ ¬ InputsHeld s) ∧
    (∃ (s : State) (ins : Inputs), s.scan.active = true ∧ s.config.evalLatency = 0 ∧ ins.stable = true ∧
      ins.table ≠ s.scan.table ∧ ins.reqAddr ≠ s.scan.req.t ∧ ins.reqOp ≠ s.scan.req.op.code) ∧
    (∃ s s' : State, s.scan.active = true ∧ s.config.evalLatency ≠ 0 ∧ step s = .next s') ∧
    ∃ (s a : State) (ins : Inputs), s.scan.active = false ∧ s.config.evalLatency ≠ 0 ∧
      step (s.present ins) = .next a :=
  ⟨⟨(st 0 twoEntries 0x8004 0).present ⟨twoEntries, 0, 0, true, false⟩, ⟨rfl, .inr rfl⟩,
      fun h => Bool.noConfusion h.1⟩,
    ⟨(mid 0 twoEntries 0x8004 0).present ⟨twoEntries, 0, 0, true, false⟩, .inr ⟨rfl, rfl⟩,
      fun h => Bool.noConfusion h.1, fun h => Bool.noConfusion h.1⟩,
    ⟨mid 0 twoEntries 0x8004 0, ⟨tbl [], 0, 2, true, true⟩, rfl, rfl, rfl, by decide, by decide, by decide⟩,
    ⟨mid 2 twoEntries 0x8004 0, _, rfl, by decide, rfl⟩,
    st 2 twoEntries 0x8004 0, _, Inputs.zero, rfl, by decide, rfl⟩

theorem witness_ScanTerminates : ∀ i ∈ [(0 : Index), 63], ∃ s : State, s.scan.index = i ∧ s.scan.active = true ∧
    (s.config.evalLatency = 0 → InputsHeld s) := fun i _ => ⟨mid 0 twoEntries 0 i, rfl, rfl, fun _ => mid_held _ _ _ _⟩

theorem witness_ScanStepsRefineCheck : ∀ L ∈ [0, 3], ∃ (s : State) (q : Request), s.config.evalLatency = L ∧
    s.scan = Scan.idle ∧ (s.config.evalLatency = 0 →
      s.inputs.stable = true ∧ s.inputs.reqAddr = q.t ∧ s.inputs.reqOp = q.op.code) :=
  fun L _ => ⟨st L twoEntries 0x8004 2, ⟨0x8004, .execute⟩, rfl, rfl, fun _ => ⟨rfl, rfl, rfl⟩⟩

/-- A pipeline of latency 3 with two answers in flight, one due at the next edge. -/
def flying : State := { st 3 twoEntries 0x8004 0 with pipe :=
  [⟨1, answer ⟨3, true⟩ twoEntries ⟨0, .read⟩⟩, ⟨3, answer ⟨3, true⟩ twoEntries ⟨0, .write⟩⟩] }

theorem flying_ordered : PipeOrdered flying := by
  refine ⟨by decide, ?_, fun h => by simp [flying, st, Scan.idle] at h⟩
  intro p hp
  simp only [flying, List.mem_cons, List.not_mem_nil, or_false] at hp
  rcases hp with rfl | rfl <;> decide

theorem witness_StepKeepsPipeOrdered : ∃ s s', PipeOrdered s ∧ s.pipe ≠ [] ∧ step s = .next s' :=
  ⟨flying, _, flying_ordered, by simp [flying], rfl⟩

/-- A scan at entry 1 of `twoEntries`, after the miss at entry 0, and answers in flight. -/
theorem witness_StepKeepsAnswersSound :
    (∃ s s', AnswersSound s ∧ s.scan.active = true ∧ step s = .next s') ∧
    ∃ s s', AnswersSound s ∧ s.pipe ≠ [] ∧ step s = .next s' := by
  constructor
  · refine ⟨{ mid 0 twoEntries 0x8004 1 with scan := ⟨true, 1, ⟨0x8004, .read⟩, twoEntries,
      [⟨0, .na4, 0x11, 0x8000, 0x8004, false⟩]⟩ }, _, ⟨fun o h => by simp [mid, st] at h,
      fun p h => by simp [mid, st] at h, ?_⟩, rfl, rfl⟩
    unfold ScanSound
    rw [if_pos rfl]
    exact ⟨twoEntries_first.1.2, by decide⟩
  · refine ⟨flying, _, ⟨fun o h => by simp [flying, st] at h, fun p hp => ?_, rfl⟩, by simp [flying], rfl⟩
    simp only [flying, List.mem_cons, List.not_mem_nil, or_false] at hp
    rcases hp with rfl | rfl
    · exact ⟨twoEntries, ⟨0, .read⟩, rfl⟩
    · exact ⟨twoEntries, ⟨0, .write⟩, rfl⟩

/-- Latency 2, with and without the trace, for a cycle with a sample and for one without. -/
theorem witness_AnswerAfterLatency : ∀ v b : Bool, ∃ (s s' : State) (ins : Inputs) (later : List Inputs),
    PipeOrdered s ∧ s.scan.active = false ∧ later.length = s.config.evalLatency ∧ s.config.evalLatency ≠ 0 ∧
    runWith (ins :: later) s = .next s' ∧ ins.reqValid = v ∧ Op.ofCode ins.reqOp = some .execute ∧
    s.config.hasTrace = b := by
  intro v b
  refine ⟨State.atReset ⟨2, b⟩ Inputs.zero, ?_, ⟨twoEntries, 0x8004, 2, v, true⟩,
    [⟨tbl [], 0, 0, true, true⟩, Inputs.zero], ⟨by simp, by simp, by simp⟩, rfl, rfl, Nat.succ_ne_zero 1,
    ?_, rfl, rfl, rfl⟩
  · exact match runWith [⟨twoEntries, 0x8004, 2, v, true⟩, ⟨tbl [], 0, 0, true, true⟩, Inputs.zero]
      (State.atReset ⟨2, b⟩ Inputs.zero) with
    | .next s' => s'
    | .fault _ => State.reset
    | .refused _ => State.reset
  · cases v <;> cases b <;> rfl

theorem witness_CombinationalOutputs : ∀ b : Bool, ∃ (s : State) (op : Op), s.scan.active = false ∧
    s.config.evalLatency = 0 ∧ s.inputs.stable = true ∧ Op.ofCode s.inputs.reqOp = some op ∧ s.config.hasTrace = b :=
  fun b => ⟨(st 0 twoEntries 0x8004 2).setHasTrace b, .execute, rfl, rfl, rfl, rfl, rfl⟩

/-- At latency 1, one cycle after the sample, `res_valid = 1` and the wires carry the grant at entry 1 and the records of
both entries; one cycle later `res_valid = 0` (R51, R52, R82). -/
theorem test_wires_after_latency :
    let s := (st 1 twoEntries 0x8004 2).check ⟨0x8004, .execute⟩
    s.tick.resValid = some true ∧ s.tick.resKind = some 0b00#2 ∧ s.tick.resIndex = some 1 ∧
    s.tick.trValid 0 = some true ∧ s.tick.trMatch 0 = some false ∧ s.tick.trMatch 1 = some true ∧
    s.tick.trBase 1 = some 0x8000 ∧ s.tick.trLimit 1 = some 0x8010 ∧ s.tick.trValid 2 = some false ∧
    s.tick.tick.resValid = some false ∧ s.tick.tick.resKind = none := by decide

theorem witness_ResetState : ∃ (c : Config) (ins : Inputs), c.evalLatency ≠ 0 ∧ ins ≠ Inputs.zero :=
  ⟨⟨3, false⟩, ⟨twoEntries, 0, 0, true, true⟩, by decide, by decide⟩

/-- DH2's two tables -/
theorem witness_EachEvaluationSeesItsOwnTable : ∃ (s : State) (old new : Inputs) (op op' : Op),
    s.scan.active = false ∧ s.config.evalLatency = 0 ∧ old.stable = true ∧ new.stable = true ∧
    Op.ofCode old.reqOp = some op ∧ Op.ofCode new.reqOp = some op' ∧ old.table ≠ new.table :=
  ⟨State.reset, ⟨tbl [(0, 0x11, 0x8000)], 0x8000, 0, false, true⟩, ⟨tbl [(0, 0x10, 0x8000)], 0x8000, 0, false, true⟩,
    .read, .read, rfl, rfl, rfl, rfl, rfl, rfl, by decide⟩

end Sys2Proof.Tests
end

/-! PROOFS. The family `10_state.md`: the scan and its outcome, what every step keeps, and what an answer depends on. -/

namespace Sys2Proof.Machine

/-! ### The entries below and from an index -/

/-- The entries still to examine at `Scanning(i)` are entry i and those after it. -/
theorem finRange_drop_index (i : Index) :
    (List.finRange 64).drop i = i :: (List.finRange 64).drop (i + 1) := by
  rw [List.drop_eq_getElem_cons (by simp), List.getElem_finRange]
  rfl

/-- The entries below i are the first i entries. -/
theorem finRange_filter_lt (i : Index) :
    ((List.finRange 64).filter fun j => decide (j < i)) = (List.finRange 64).take i := by
  have below : ∀ j ∈ (List.finRange 64).take i, decide (j < i) = true := by
    intro j hj
    obtain ⟨k, hk, rfl⟩ := List.mem_take_iff_getElem.mp hj
    simp only [List.getElem_finRange, decide_eq_true_eq, Fin.lt_def, Fin.val_cast]
    omega
  have above : ∀ j ∈ (List.finRange 64).drop i, ¬ decide (j < i) = true := by
    intro j hj
    obtain ⟨k, hk, rfl⟩ := List.mem_drop_iff_getElem.mp hj
    simp only [List.getElem_finRange, decide_eq_true_eq, Fin.lt_def, Fin.val_cast]
    omega
  calc (List.finRange 64).filter (fun j => decide (j < i))
      = ((List.finRange 64).take i ++ (List.finRange 64).drop i).filter (fun j => decide (j < i)) := by
        rw [List.take_append_drop]
    _ = (List.finRange 64).take i := by
        rw [List.filter_append, List.filter_eq_self.mpr below, List.filter_eq_nil_iff.mpr above, List.append_nil]

theorem mem_finRange_take {i j : Index} : j ∈ (List.finRange 64).take i ↔ j < i := by
  simp [← finRange_filter_lt]

theorem finRange_take_succ_filterMap (i : Index) (f : Index → Option TraceRecord) :
    ((List.finRange 64).take (i + 1)).filterMap f = ((List.finRange 64).take i).filterMap f ++ (f i).toList := by
  have htake : (List.finRange 64).take (i + 1) = (List.finRange 64).take i ++ [i] := by
    rw [List.take_succ_eq_append_getElem (by simp), List.getElem_finRange]
    rfl
  rw [htake, List.filterMap_append]
  cases h : f i <;> simp [h]

/-! ### R65's loop, entry by entry -/

section Loop

variable {T : Table} {q : Request} {i : Index} {rest : List Index} {tr : List TraceRecord}

/-- The scan passes an entry that does not end it, with the record of its range if it has one. -/
theorem judgeEntry_of_not_stops (h : ¬ Stops T q.t i) : judgeEntry T q i = .pass (closedRecord T q.t i) := by
  rcases judgeEntry_cases T q i with ⟨ho, -⟩ | ⟨hc, -⟩ | ⟨-, hj⟩
  · exact absurd (.inl ho) h
  · exact absurd (.inr hc) h
  · exact hj

theorem judgeEntry_of_overflows (h : Overflows T i) : judgeEntry T q i = .stop (.rangeOverflow i) none := by
  rcases judgeEntry_cases T q i with ⟨-, -, -, hj⟩ | ⟨-, hn, -⟩ | ⟨hn, -⟩
  · exact hj
  · exact absurd h hn
  · exact absurd (.inl h) hn

theorem judgeEntry_of_covers (h : Covers T q.t i) :
    judgeEntry T q i = .stop (verdict i (T.cfg i) q.op) (closedRecord T q.t i) := by
  rcases judgeEntry_cases T q i with ⟨-, hn, -⟩ | ⟨-, -, r, hr, -, hj⟩ | ⟨hn, -⟩
  · exact absurd h hn
  · rw [hj, hr]
  · exact absurd (.inr h) hn

theorem scanList_of_not_stops (h : ¬ Stops T q.t i) :
    scanList T q (i :: rest) tr = scanList T q rest (tr ++ (closedRecord T q.t i).toList) :=
  scanList_pass (judgeEntry_of_not_stops h)

theorem scanList_of_overflows (h : Overflows T i) : scanList T q (i :: rest) tr = (.rangeOverflow i, tr) := by
  rw [scanList_stop (judgeEntry_of_overflows h), Option.toList_none, List.append_nil]

theorem scanList_of_covers (h : Covers T q.t i) :
    scanList T q (i :: rest) tr = (verdict i (T.cfg i) q.op, tr ++ (closedRecord T q.t i).toList) :=
  scanList_stop (judgeEntry_of_covers h)

/-- The loop passes a list of entries none of which ends it, and emits their records. -/
theorem scanList_append_of_not_stops {l : List Index} (h : ∀ j ∈ l, ¬ Stops T q.t j) :
    scanList T q (l ++ rest) tr = scanList T q rest (tr ++ l.filterMap (closedRecord T q.t)) := by
  induction l generalizing tr with
  | nil => simp
  | cons j l ih =>
    obtain ⟨hj, hl⟩ := List.forall_mem_cons.mp h
    rw [List.cons_append, scanList_of_not_stops hj, ih hl, List.append_assoc]
    cases hr : closedRecord T q.t j <;> simp [hr]

/-- Every record the loop emits is the record of an entry. -/
theorem mem_scanList_trace {l : List Index} {r : TraceRecord} (h : r ∈ (scanList T q l tr).2) :
    r ∈ tr ∨ ∃ i ∈ l, closedRecord T q.t i = some r := by
  have emitted : ∀ {tr : List TraceRecord} {i : Index}, r ∈ tr ++ (closedRecord T q.t i).toList →
      r ∈ tr ∨ closedRecord T q.t i = some r := by simp
  induction l generalizing tr with
  | nil => exact .inl h
  | cons i l ih =>
    by_cases ho : Overflows T i
    · rw [scanList_of_overflows ho] at h
      exact .inl h
    by_cases hc : Covers T q.t i
    · rw [scanList_of_covers hc] at h
      exact (emitted h).imp_right fun hr => ⟨i, by simp, hr⟩
    · rw [scanList_of_not_stops (not_or.mpr ⟨ho, hc⟩)] at h
      rcases ih h with h | ⟨j, hj, hr⟩
      · exact (emitted h).imp_right fun hr => ⟨i, by simp, hr⟩
      · exact .inr ⟨j, by simp [hj], hr⟩

/-- Every record of an evaluation is the record of an entry. -/
theorem mem_evaluate_trace {r : TraceRecord} (h : r ∈ (evaluate T q).2) : ∃ i, closedRecord T q.t i = some r := by
  rcases mem_scanList_trace h with h | ⟨i, -, hr⟩
  · simp at h
  · exact ⟨i, hr⟩

/-- The record of an entry has the entry's index and its whole config byte (R77). -/
theorem closedRecord_configBits {t : Word} {r : TraceRecord} (h : closedRecord T t i = some r) :
    r.index = i ∧ r.configBits = T.cfg i := by
  unfold closedRecord at h
  split at h
  · obtain rfl := Option.some.inj h
    exact ⟨rfl, rfl⟩
  · simp at h

end Loop

/-! ### What a result depends on (R68) -/

/-- The loop's result is a function of what the entries resolve to and of the permission bits it selects. -/
theorem scanList_result_congr {T T' : Table} {q : Request} (hres : ∀ i, resolve T i = resolve T' i)
    (hperm : ∀ i, permitted (T.cfg i) q.op = permitted (T'.cfg i) q.op) (l : List Index)
    (tr tr' : List TraceRecord) : (scanList T q l tr).1 = (scanList T' q l tr').1 := by
  have hov : ∀ i, Overflows T i ↔ Overflows T' i := fun i => by simp only [Overflows, hres]
  have hco : ∀ i, Covers T q.t i ↔ Covers T' q.t i := fun i => by simp only [Covers, hres]
  induction l generalizing tr tr' with
  | nil => rfl
  | cons i l ih =>
    by_cases ho : Overflows T i
    · rw [scanList_of_overflows ho, scanList_of_overflows ((hov i).mp ho)]
    by_cases hc : Covers T q.t i
    · rw [scanList_of_covers hc, scanList_of_covers ((hco i).mp hc), verdict, verdict, hperm]
    · have hs : ¬ Stops T q.t i := not_or.mpr ⟨ho, hc⟩
      have hs' : ¬ Stops T' q.t i := by rwa [Stops, ← hov, ← hco]
      rw [scanList_of_not_stops hs, scanList_of_not_stops hs']
      exact ih _ _

theorem evaluate_result_congr {T T' : Table} {q : Request} (hres : ∀ i, resolve T i = resolve T' i)
    (hperm : ∀ i, permitted (T.cfg i) q.op = permitted (T'.cfg i) q.op) :
    (evaluate T q).1 = (evaluate T' q).1 :=
  scanList_result_congr hres hperm _ _ _

/-- What an entry resolves to is a function of the modes and the address words. -/
theorem resolve_congr {T T' : Table} (haddr : ∀ i, T.addr i = T'.addr i)
    (hmode : ∀ i, modeOf (T.cfg i) = modeOf (T'.cfg i)) (i : Index) : resolve T i = resolve T' i := by
  have hbase : torBase T i = torBase T' i := by simp only [torBase, haddr]
  simp only [resolve, torBounds, hmode, haddr, hbase]

/-- The mode and the permission bits are read from bits 4:0 alone (R23, R45). -/
theorem modeOf_and_lowBits : ∀ cfg : Byte, modeOf (cfg &&& 0x1F#8) = modeOf cfg := by decide

theorem permitted_and_lowBits (cfg : Byte) (op : Op) : permitted (cfg &&& 0x1F#8) op = permitted cfg op := by
  cases op <;> simp [permitted, Op.code]

/-! ### The outcome of a scan in progress (R29, R65) -/

/-- What R65's loop gives from `Scanning(index)` on. -/
def Scan.outcome (c : Scan) : AccessResult × List TraceRecord :=
  scanList c.table c.req ((List.finRange 64).drop c.index) c.trace

/-- `Scanning(index + 1)`, with the record of entry `index` emitted. -/
def Scan.next (c : Scan) (h : c.index.val < 63) : Scan :=
  { c with
    active := true
    index := ⟨c.index.val + 1, by omega⟩
    trace := c.trace ++ (closedRecord c.table c.req.t c.index).toList }

/-- The evaluation in progress has ended with this result and this trace. -/
def State.conclude (s : State) (e : AccessResult × List TraceRecord) : State :=
  { s.deliver (Output.make s.config e.1 e.2) with scan := Scan.idle }

@[simp] theorem Scan.start_outcome (T : Table) (q : Request) : (Scan.start T q).outcome = evaluate T q := rfl

/-- Passing an entry that does not end the scan keeps the outcome. -/
theorem Scan.next_outcome {c : Scan} (h : c.index.val < 63) (hs : ¬ Stops c.table c.req.t c.index) :
    (c.next h).outcome = c.outcome := by
  rw [outcome, outcome, finRange_drop_index c.index, scanList_of_not_stops hs]
  rfl

/-- Passing entry 63 ends the scan with `FaultUnmapped` (R29, R73). -/
theorem Scan.outcome_last {c : Scan} (h : ¬ c.index.val < 63) (hs : ¬ Stops c.table c.req.t c.index) :
    c.outcome = (.faultUnmapped, c.trace ++ (closedRecord c.table c.req.t c.index).toList) := by
  have hdone : (List.finRange 64).drop (c.index + 1) = [] := List.drop_eq_nil_of_le (by simp; omega)
  rw [outcome, finRange_drop_index, scanList_of_not_stops hs, hdone, scanList]

theorem Scan.outcome_stop {c : Scan} {result : AccessResult} {record : Option TraceRecord}
    (h : judgeEntry c.table c.req c.index = .stop result record) :
    c.outcome = (result, c.trace ++ record.toList) := by
  rw [outcome, finRange_drop_index, scanList_stop h]

theorem deliver_withScan (s : State) (c : Scan) (o : Output) :
    { s with scan := c }.deliver o = { s.deliver o with scan := c } := by
  unfold State.deliver
  split <;> rfl

/-- The state of the scan takes no part in how it is concluded. -/
theorem conclude_withScan (s : State) (c : Scan) (e : AccessResult × List TraceRecord) :
    { s with scan := c }.conclude e = s.conclude e := by
  rw [State.conclude, deliver_withScan, State.conclude]

theorem emit_finish_eq_conclude (s : State) (record : Option TraceRecord) (r : AccessResult) :
    (s.emit record).finish r = s.conclude (r, s.scan.trace ++ record.toList) :=
  conclude_withScan s _ (r, s.scan.trace ++ record.toList)

theorem conclude_evaluate_eq_check {s : State} (h : s.scan = Scan.idle) (q : Request) :
    s.conclude (evaluate s.inputs.table q) = s.check q := by
  show { s.check q with scan := Scan.idle } = s.check q
  rw [← h, ← check_scan s q]

/-- After entry 63 the evaluation ends with `FaultUnmapped` (R29, R73). -/
theorem advance_last {s : State} (h : ¬ s.scan.index.val < 63) : s.advance = s.finish .faultUnmapped := dif_neg h

/-- A scan step on the snapshot's own entry ends the evaluation with the scan's outcome, or passes an entry that does
not end it. -/
theorem scanStep_snapshot (s : State) :
    s.scanStep (s.scan.table.cfg s.scan.index) (resolve s.scan.table s.scan.index) = s.conclude s.scan.outcome ∨
    ∃ h : s.scan.index.val < 63, ¬ Stops s.scan.table s.scan.req.t s.scan.index ∧
      s.scanStep (s.scan.table.cfg s.scan.index) (resolve s.scan.table s.scan.index) =
        { s with scan := s.scan.next h } := by
  by_cases hs : Stops s.scan.table s.scan.req.t s.scan.index
  · have hstop : ∃ result record, judgeEntry s.scan.table s.scan.req s.scan.index = .stop result record :=
      hs.elim (fun ho => ⟨_, _, judgeEntry_of_overflows ho⟩) fun hc => ⟨_, _, judgeEntry_of_covers hc⟩
    obtain ⟨result, record, hj⟩ := hstop
    exact .inl (by rw [scanStep_stop hj, emit_finish_eq_conclude, Scan.outcome_stop hj])
  · rw [scanStep_pass (judgeEntry_of_not_stops hs)]
    by_cases h : s.scan.index.val < 63
    · exact .inr ⟨h, hs, dif_pos h⟩
    · exact .inl (by rw [advance_last (s := s.emit _) h, emit_finish_eq_conclude, Scan.outcome_last h hs])

/-! ### A run of scan steps -/

theorem run_succ {s t : State} (n : Nat) (h : step s = .next t) : core.run (n + 1) s = core.run n t := by
  have h : core.step s = .next t := h
  simp only [Host.Core.run, h]

/-- Inside an evaluation whose inputs are held a step is the scan step on the snapshot's entry. -/
theorem step_scanning {s : State} (ha : s.scan.active = true) (hi : s.config.evalLatency = 0 → InputsHeld s) :
    step s = .next (s.scanStep (s.scan.table.cfg s.scan.index) (resolve s.scan.table s.scan.index)) := by
  rw [step, if_pos ha, fetchEntry_held hi, runFetched, decodeEntry_scanStep]

/-- From `Scanning(i)` at most one step for each entry from i on ends the evaluation, with the scan's outcome. -/
theorem run_scanning (s : State) (ha : s.scan.active = true) (hi : s.config.evalLatency = 0 → InputsHeld s) :
    ∃ n, 1 ≤ n ∧ n ≤ 64 - s.scan.index.val ∧ core.run n s = .next (s.conclude s.scan.outcome) := by
  have hstep := step_scanning ha hi
  rcases scanStep_snapshot s with hend | ⟨h, hs, hpass⟩
  · rw [hend] at hstep
    exact ⟨1, le_refl 1, by omega, run_succ 0 hstep⟩
  · rw [hpass] at hstep
    have held : s.config.evalLatency = 0 → InputsHeld { s with scan := s.scan.next h } := fun h0 =>
      ⟨(hi h0).1, fun _ => (hi h0).2 ha⟩
    obtain ⟨n, -, hn, hrun⟩ := run_scanning { s with scan := s.scan.next h } rfl held
    have hn : n ≤ 64 - (s.scan.index.val + 1) := hn
    refine ⟨n + 1, by omega, by omega, ?_⟩
    rw [run_succ n hstep, hrun, conclude_withScan, Scan.next_outcome h hs]
termination_by 63 - s.scan.index.val
decreasing_by
  show 63 - (s.scan.index.val + 1) < 63 - s.scan.index.val
  omega

/-! ### Soundness of the scan and of the answers -/

/-- `ScanSound` inside an evaluation, by the entries below the index as the first entries of the table. -/
theorem scanSound_active {s : State} (ha : s.scan.active = true) :
    ScanSound s ↔ (∀ j, j < s.scan.index → ¬ Stops s.scan.table s.scan.req.t j) ∧
      s.scan.trace =
        ((List.finRange 64).take s.scan.index).filterMap (closedRecord s.scan.table s.scan.req.t) := by
  rw [ScanSound, if_pos ha, finRange_filter_lt]

theorem scanSound_idle {s : State} (h : s.scan = Scan.idle) : ScanSound s := by
  rw [ScanSound, h]
  exact rfl

theorem scan_idle_of_scanSound {s : State} (ha : s.scan.active = false) (h : ScanSound s) :
    s.scan = Scan.idle := by
  rwa [ScanSound, ha] at h

/-- A sound scan ends as the evaluation of its snapshot does. -/
theorem outcome_of_scanSound {s : State} (ha : s.scan.active = true) (h : ScanSound s) :
    s.scan.outcome = evaluate s.scan.table s.scan.req := by
  obtain ⟨hns, htr⟩ := (scanSound_active ha).mp h
  rw [evaluate, ← List.take_append_drop s.scan.index (List.finRange 64),
    scanList_append_of_not_stops fun j hj => hns j (mem_finRange_take.mp hj), List.nil_append, ← htr,
    Scan.outcome]

/-- Passing an entry that does not end the scan keeps it sound. -/
theorem scanSound_next {s : State} (ha : s.scan.active = true) (h : ScanSound s) (hi : s.scan.index.val < 63)
    (hs : ¬ Stops s.scan.table s.scan.req.t s.scan.index) : ScanSound { s with scan := s.scan.next hi } := by
  obtain ⟨hns, htr⟩ := (scanSound_active ha).mp h
  refine (scanSound_active rfl).mpr ⟨fun j hj => ?_, ?_⟩
  · rcases Nat.lt_succ_iff_lt_or_eq.mp hj with hj | hj
    · exact hns j hj
    · exact Fin.ext hj ▸ hs
  · calc s.scan.trace ++ (closedRecord s.scan.table s.scan.req.t s.scan.index).toList
        = ((List.finRange 64).take s.scan.index).filterMap (closedRecord s.scan.table s.scan.req.t) ++
            (closedRecord s.scan.table s.scan.req.t s.scan.index).toList := by rw [← htr]
      _ = ((List.finRange 64).take (s.scan.index + 1)).filterMap (closedRecord s.scan.table s.scan.req.t) :=
        (finRange_take_succ_filterMap _ _).symm

/-- Everything shown or in flight is the answer to one sample: `AnswersSound` without its part about the scan. -/
def OutputsSound (s : State) : Prop :=
  (∀ o, s.out = some o → IsAnswer s.config o) ∧ ∀ p ∈ s.pipe, IsAnswer s.config p.output

theorem answersSound_iff {s : State} : AnswersSound s ↔ OutputsSound s ∧ ScanSound s := and_assoc.symm

theorem deliver_keeps_outputsSound {s : State} (h : OutputsSound s) {o : Output} (ho : IsAnswer s.config o) :
    OutputsSound (s.deliver o) := by
  obtain ⟨hout, hpipe⟩ := h
  by_cases h0 : s.config.evalLatency = 0
  · rw [deliver_now o h0]
    exact ⟨fun _ e => Option.some.inj e ▸ ho, hpipe⟩
  · rw [deliver_later o h0]
    refine ⟨hout, fun p hp => ?_⟩
    rcases List.mem_append.mp hp with hp | hp
    · exact hpipe p hp
    · obtain rfl := List.mem_singleton.mp hp
      exact ho

theorem tick_keeps_outputsSound {s : State} (h : OutputsSound s) : OutputsSound s.tick := by
  obtain ⟨-, hpipe⟩ := h
  have ticked : ∀ l : List InFlight, (∀ p ∈ l, IsAnswer s.config p.output) →
      ∀ p ∈ l.map InFlight.tick, IsAnswer s.config p.output := by
    intro l hl p hp
    obtain ⟨x, hx, rfl⟩ := List.mem_map.mp hp
    exact hl x hx
  cases hp : s.pipe with
  | nil =>
    rw [tick_nil hp]
    exact ⟨fun _ e => by simp at e, hpipe⟩
  | cons p ps =>
    rw [hp] at hpipe
    obtain ⟨hfst, hrest⟩ := List.forall_mem_cons.mp hpipe
    by_cases hd : p.due ≤ 1
    · rw [tick_due hp hd]
      exact ⟨fun _ e => Option.some.inj e ▸ hfst, ticked ps hrest⟩
    · rw [tick_wait hp (Nat.lt_of_not_le hd)]
      exact ⟨fun _ e => by simp at e, ticked (p :: ps) hpipe⟩

theorem tick_keeps_answersSound {s : State} (h : AnswersSound s) (ha : s.scan.active = false) :
    AnswersSound s.tick := by
  obtain ⟨hout, hscan⟩ := answersSound_iff.mp h
  exact answersSound_iff.mpr
    ⟨tick_keeps_outputsSound hout, scanSound_idle (by rw [tick_scan, scan_idle_of_scanSound ha hscan])⟩

theorem check_keeps_answersSound {s : State} (h : AnswersSound s) (ha : s.scan.active = false) (q : Request) :
    AnswersSound (s.check q) := by
  obtain ⟨hout, hscan⟩ := answersSound_iff.mp h
  exact answersSound_iff.mpr
    ⟨deliver_keeps_outputsSound hout ⟨_, q, rfl⟩, scanSound_idle (by rw [check_scan, scan_idle_of_scanSound ha hscan])⟩

theorem scanStep_keeps_answersSound {s : State} (h : AnswersSound s) (ha : s.scan.active = true) :
    AnswersSound (s.scanStep (s.scan.table.cfg s.scan.index) (resolve s.scan.table s.scan.index)) := by
  obtain ⟨hout, hscan⟩ := answersSound_iff.mp h
  rcases scanStep_snapshot s with hend | ⟨hi, hs, hpass⟩
  · rw [hend, outcome_of_scanSound ha hscan]
    exact answersSound_iff.mpr
      ⟨deliver_keeps_outputsSound hout ⟨s.scan.table, s.scan.req, rfl⟩, scanSound_idle rfl⟩
  · rw [hpass]
    exact answersSound_iff.mpr ⟨hout, scanSound_next ha hscan hi hs⟩

/-! ### The inputs and the parameters -/

theorem advance_frame (s : State) : s.advance.inputs = s.inputs ∧ s.advance.config = s.config := by
  unfold State.advance
  split <;> simp

theorem scanStep_frame (s : State) (cfg : Byte) (r : Resolved) :
    (s.scanStep cfg r).inputs = s.inputs ∧ (s.scanStep cfg r).config = s.config := by
  unfold State.scanStep
  split
  · simpa using advance_frame (s.emit _)
  · simp

/-! ### The obligations -/

/-- Settles O44: each of the four ways a step completes keeps the invariant; a scan step ends the evaluation with the
outcome of its sound scan, which is the answer to the snapshot, or passes an entry that does not end it. -/
theorem stepKeepsAnswersSound : Obligations.StepKeepsAnswersSound := by
  intro s s' hs h
  rcases step_cases h with ⟨ha, -, rfl⟩ | ⟨ha, -, -, op, -, rfl⟩ | ⟨ha, -, -, -, op, -, rfl⟩ | ⟨ha, -, -, rfl⟩
  · exact scanStep_keeps_answersSound hs ha
  · exact check_keeps_answersSound hs ha _
  · exact check_keeps_answersSound (tick_keeps_answersSound hs ha) (by rwa [tick_scan]) _
  · exact tick_keeps_answersSound hs ha

/-- Settles O15: the loop's result depends on the modes, the address words and the permission bits, all read from
bits 4:0; and each record is that of an entry, with its whole config byte. -/
theorem reservedConfigBitsIgnored : Obligations.ReservedConfigBitsIgnored := by
  constructor
  · intro T T' q h
    have hmode : ∀ i, modeOf (T.cfg i) = modeOf (T'.cfg i) := fun i => by
      rw [← modeOf_and_lowBits, (h i).2, modeOf_and_lowBits]
    have hperm : ∀ i, permitted (T.cfg i) q.op = permitted (T'.cfg i) q.op := fun i => by
      rw [← permitted_and_lowBits, (h i).2, permitted_and_lowBits]
    exact evaluate_result_congr (resolve_congr (fun i => (h i).1) hmode) hperm
  · intro T q r hr
    obtain ⟨i, hi⟩ := mem_evaluate_trace hr
    obtain ⟨hindex, hcfg⟩ := closedRecord_configBits hi
    rw [hcfg, hindex]

/-- Settles O37: no update of the state that a step makes writes the inputs or the parameters. -/
theorem stepNeverWritesTheInputs : Obligations.StepNeverWritesTheInputs := by
  intro s s' h
  rcases step_cases h with ⟨-, -, rfl⟩ | ⟨-, -, -, op, -, rfl⟩ | ⟨-, -, -, -, op, -, rfl⟩ | ⟨-, -, -, rfl⟩
  · exact scanStep_frame s _ _
  · exact ⟨check_inputs s _, check_config s _⟩
  · exact ⟨by rw [check_inputs, tick_inputs], by rw [check_config, tick_config]⟩
  · exact ⟨tick_inputs s, tick_config s⟩

/-- Settles O42: the run of scan steps from `Scanning(0)` concludes with the outcome of the fresh scan, which is the
evaluation that the request's instruction performs. -/
theorem scanStepsRefineCheck : Obligations.ScanStepsRefineCheck := by
  intro s q hidle hheld
  have hi : (s.beginScan q).config.evalLatency = 0 → InputsHeld (s.beginScan q) := fun h0 =>
    have ⟨hst, ht, hop⟩ := hheld h0
    ⟨hst, fun _ => ⟨rfl, ht, hop⟩⟩
  obtain ⟨n, hn, hn', hrun⟩ := run_scanning (s.beginScan q) rfl hi
  refine ⟨n, s.check q, hn, hn', exec_requestInstr q.op q.t s, ?_⟩
  calc core.run n (s.beginScan q)
      = .next ((s.beginScan q).conclude (evaluate s.inputs.table q)) := hrun
    _ = .next (s.check q) := by rw [State.beginScan, conclude_withScan, conclude_evaluate_eq_check hidle]

/-- Settles O49: the function is `answer` at the request. -/
theorem answerIsAFunctionOfTheSample : Obligations.AnswerIsAFunctionOfTheSample := fun op t =>
  ⟨fun c T => answer c T ⟨t, op⟩, fun s => ⟨s.check ⟨t, op⟩, exec_requestInstr op t s, deliver_answered s _⟩⟩

end Sys2Proof.Machine

/-! PROOFS. The family `20_memory.md`: the byte at 0xFFFFFFFF, which no range contains. -/

namespace Sys2Proof.Machine

/-- A limit is a u32 and is excluded, so no entry covers 0xFFFFFFFF (R37, R67). -/
theorem not_covers_top (T : Table) (i : Index) : ¬ Covers T 0xFFFFFFFF#32 i := by
  rintro ⟨b, l, -, -, hlt⟩
  bv_omega

/-- A loop in which no entry covers the target runs through to `FaultUnmapped` or ends at an overflow (R65, R74). -/
theorem scanList_result_of_not_covers {T : Table} {q : Request} (h : ∀ i, ¬ Covers T q.t i) (l : List Index)
    (tr : List TraceRecord) :
    (scanList T q l tr).1 = .faultUnmapped ∨ ∃ i, (scanList T q l tr).1 = .rangeOverflow i := by
  induction l generalizing tr with
  | nil => exact .inl rfl
  | cons i l ih =>
    by_cases ho : Overflows T i
    · exact .inr ⟨i, by rw [scanList_of_overflows ho]⟩
    · rw [scanList_of_not_stops (not_or.mpr ⟨ho, h i⟩)]
      exact ih _

/-- Settles O24: no entry covers the byte at 0xFFFFFFFF, so the loop never reaches a permission bit. -/
theorem topByteIsNeverCovered : Obligations.TopByteIsNeverCovered := fun T op =>
  scanList_result_of_not_covers (q := ⟨0xFFFFFFFF#32, op⟩) (not_covers_top T) _ _

end Sys2Proof.Machine

/-! PROOFS. The family `30_encoding.md`: decoding and encoding, the request on the ports, and the output wires. -/

namespace Sys2Proof.Machine

/-! ### Instructions by port: the mode of an entry, the operation of a request (R45, R46, R49) -/

/-- The instruction of a table entry with mode `m`, the other fields `p` and the address word `a`. -/
def entryInstr (m : Mode) (p : Attr) (a : Word) : Instr :=
  match m with
  | .off => .off p a
  | .tor => .tor p a
  | .na4 => .na4 p a
  | .napot => .napot p a

theorem decodeEntry_eq_entryInstr (cfg : Byte) (a : Word) :
    decodeEntry cfg a = entryInstr (modeOf cfg) (attrOf cfg) a := by
  unfold decodeEntry
  cases modeOf cfg <;> rfl

theorem decode_entry (cfg : Byte) (a : Word) :
    decode (.entry cfg a) = .ok (entryInstr (modeOf cfg) (attrOf cfg) a) :=
  congrArg Except.ok (decodeEntry_eq_entryInstr cfg a)

theorem encode_entryInstr (m : Mode) (p : Attr) (a : Word) : encode (entryInstr m p a) = .entry (cfgByte m p) a := by
  cases m <;> rfl

theorem decode_request_code (op : Op) (t : Word) : decode (.request op.code t) = .ok (requestInstr op t) := by
  cases op <;> rfl

theorem encode_requestInstr (op : Op) (t : Word) : encode (requestInstr op t) = .request op.code t := by
  cases op <;> rfl

/-- Every instruction is a table entry's or a request's. -/
theorem instr_cases (i : Instr) : (∃ m p a, i = entryInstr m p a) ∨ ∃ op t, i = requestInstr op t := by
  cases i with
  | off p a => exact .inl ⟨.off, p, a, rfl⟩
  | tor p a => exact .inl ⟨.tor, p, a, rfl⟩
  | na4 p a => exact .inl ⟨.na4, p, a, rfl⟩
  | napot p a => exact .inl ⟨.napot, p, a, rfl⟩
  | checkR t => exact .inr ⟨.read, t, rfl⟩
  | checkW t => exact .inr ⟨.write, t, rfl⟩
  | checkX t => exact .inr ⟨.execute, t, rfl⟩

/-- A value of `req_op` is the reserved one or the code of an operation (R49, R50). -/
theorem opCode_cases : ∀ c : BitVec 2, c = 0b11#2 ∨ ∃ op : Op, c = op.code
  | 0b00#2 => .inr ⟨.read, rfl⟩
  | 0b01#2 => .inr ⟨.write, rfl⟩
  | 0b10#2 => .inr ⟨.execute, rfl⟩
  | 0b11#2 => .inl rfl

theorem ofCode_eq_some_iff {c : BitVec 2} {op : Op} : Op.ofCode c = some op ↔ c = op.code := by
  revert c
  cases op <;> decide

theorem opCode_ne_reserved (op : Op) : op.code ≠ 0b11#2 := by
  cases op <;> decide

theorem decode_reserved (t : Word) : decode (.request 0b11#2 t) = .error .reservedOperation := rfl

/-- Settles O1: an instruction is a mode with its other fields, which the config byte keeps, or an operation, which its
code keeps; and each value of a port is such a byte, such a code or the reserved code, which does not decode. -/
theorem encodeDecodeRoundTrip : Obligations.EncodeDecodeRoundTrip := by
  constructor
  · intro i
    rcases instr_cases i with ⟨m, p, a, rfl⟩ | ⟨op, t, rfl⟩
    · rw [encode_entryInstr, decode_entry, modeOf_cfgByte, attrOf_cfgByte]
    · rw [encode_requestInstr, decode_request_code]
  · intro w i h
    cases w with
    | entry cfg a =>
      obtain rfl := Except.ok.inj ((decode_entry cfg a).symm.trans h)
      rw [encode_entryInstr, cfgByte_modeOf_attrOf]
    | request c t =>
      rcases opCode_cases c with rfl | ⟨op, rfl⟩
      · simp [decode_reserved] at h
      · obtain rfl := Except.ok.inj ((decode_request_code op t).symm.trans h)
        exact encode_requestInstr op t

/-- Settles O2: an entry always decodes, and a request by whether its code is an operation's. -/
theorem decodeRejectsOnlyTheReservedOperation : Obligations.DecodeRejectsOnlyTheReservedOperation := by
  intro w
  cases w with
  | entry cfg a => simp [decode_entry, PortWord.wellFormed]
  | request c t =>
    rcases opCode_cases c with rfl | ⟨op, rfl⟩
    · simp [decode_reserved, PortWord.wellFormed]
    · simp [decode_request_code, PortWord.wellFormed, opCode_ne_reserved]

/-- Settles O3: the decoder run on each word. -/
theorem wordsFromTheSpecDecode : Obligations.WordsFromTheSpecDecode := ⟨rfl, rfl, rfl, rfl, rfl, rfl, rfl⟩

/-- The reserved bits are the three bits above the low five (R45). -/
theorem attrOf_reserved_toNat (cfg : Byte) : (attrOf cfg).reserved.toNat = cfg.toNat / 32 := by
  simp only [attrOf, BitVec.extractLsb'_toNat, Nat.shiftRight_eq_div_pow]
  omega

/-- Settles O4: the attributes are those `attrOf` reads, and the masked byte determines the mode. -/
theorem configByteFields : Obligations.ConfigByteFields := by
  intro cfg a
  have decodes : ∀ m, modeOf cfg = m → decode (.entry cfg a) = .ok (entryInstr m (attrOf cfg) a) := by
    rintro m rfl
    exact decode_entry cfg a
  exact ⟨attrOf cfg, rfl, rfl, rfl, attrOf_reserved_toNat cfg,
    fun h => decodes .off ((modeOf_off cfg).mpr h), fun h => decodes .tor ((modeOf_tor cfg).mpr h),
    fun h => decodes .na4 ((modeOf_na4 cfg).mpr h), fun h => decodes .napot ((modeOf_napot cfg).mpr h)⟩

/-- Settles O5: each code decodes to its operation's instruction, and is the position of its permission bit. -/
theorem requestCodes : Obligations.RequestCodes := fun t _ =>
  ⟨decode_request_code .read t, rfl, decode_request_code .write t, rfl, decode_request_code .execute t, rfl,
    decode_reserved t⟩

/-! ### The result wires (R51) -/

theorem index_toNat_ofNat (i : Index) : (BitVec.ofNat 6 i.val).toNat = i.val := by
  rw [BitVec.toNat_ofNat]
  omega

theorem indexOfWires_ofNat (i : Index) : indexOfWires (BitVec.ofNat 6 i.val) = i := Fin.ext (index_toNat_ofNat i)

/-- The result is read back from the wires that carry it. -/
theorem ofWires_kind_index (r : AccessResult) : AccessResult.ofWires r.kind r.index = r := by
  cases r with
  | faultUnmapped => rfl
  | granted i => exact congrArg AccessResult.granted (indexOfWires_ofNat i)
  | fault i => exact congrArg AccessResult.fault (indexOfWires_ofNat i)
  | rangeOverflow i => exact congrArg AccessResult.rangeOverflow (indexOfWires_ofNat i)

/-- Settles O6: six wires carry every index, and each kind has its own code. -/
theorem resultWires : Obligations.ResultWires :=
  ⟨fun i => ⟨rfl, index_toNat_ofNat i, rfl, index_toNat_ofNat i, rfl, index_toNat_ofNat i⟩, rfl, rfl,
    ofWires_kind_index, fun _ => rfl⟩

/-! ### The request on the ports (R49, R50, R52, R100) -/

section Fetch

variable {s : State}

theorem fetchRequest_decodes {i : Instr} (hst : s.inputs.stable = true)
    (h : decode (.request s.inputs.reqOp s.inputs.reqAddr) = .ok i) : fetchRequest s = .ok i := by
  rw [fetchRequest, if_pos hst, decodeOrRefuse, h]

/-- A stable port that holds an operation's code gives that operation's instruction. -/
theorem fetchRequest_of_op {op : Op} (hst : s.inputs.stable = true) (h : Op.ofCode s.inputs.reqOp = some op) :
    fetchRequest s = .ok (requestInstr op s.inputs.reqAddr) :=
  fetchRequest_decodes hst (by rw [ofCode_eq_some_iff.mp h, decode_request_code])

theorem fetchRequest_reserved (hst : s.inputs.stable = true) (h : s.inputs.reqOp = 0b11#2) :
    fetchRequest s = .error .reservedOperation := by
  rw [fetchRequest, if_pos hst, h]
  rfl

/-- Between evaluations at latency 0 a step runs what the request port holds. -/
theorem step_now (ha : s.scan.active = false) (h0 : s.config.evalLatency = 0) :
    step s = runFetched (fetchRequest s) s := by
  simp [step, ha, h0]

/-- At a clock edge with `req_valid = 1` a step runs what the request port holds, after the answers have moved. -/
theorem step_sampling_edge (ha : s.scan.active = false) (h0 : s.config.evalLatency ≠ 0)
    (hv : s.inputs.reqValid = true) : step s = runFetched (fetchRequest s) s.tick := by
  simp [step, ha, h0, hv]

/-- At a clock edge with `req_valid = 0` a step only moves the answers. -/
theorem step_idle_edge (ha : s.scan.active = false) (h0 : s.config.evalLatency ≠ 0)
    (hv : s.inputs.reqValid = false) : step s = .next s.tick := by
  simp [step, ha, h0, hv]

/-- A step that samples runs what the request port holds. -/
theorem step_of_samples (h : Samples s) : ∃ u, step s = runFetched (fetchRequest s) u := by
  obtain ⟨ha, hs⟩ := h
  by_cases h0 : s.config.evalLatency = 0
  · exact ⟨s, step_now ha h0⟩
  · exact ⟨s.tick, step_sampling_edge ha h0 (hs.resolve_left h0)⟩

end Fetch

/-- Settles O35: the three cases of a step between evaluations, with the request decoded. -/
theorem stepRunsTheRequestPresented : Obligations.StepRunsTheRequestPresented := by
  intro s ha
  refine ⟨fun i hst hi => ?_, step_idle_edge ha⟩
  have hf := fetchRequest_decodes hst hi
  exact ⟨fun h0 => by rw [step_now ha h0, hf, runFetched],
    fun h0 hv => by rw [step_sampling_edge ha h0 hv, hf, runFetched]⟩

/-- Settles O36: the step is the tick, in each of the tick's three cases. -/
theorem clockEdgeWithoutRequestOnlyTicks : Obligations.ClockEdgeWithoutRequestOnlyTicks := by
  intro s ha h0 hv
  refine ⟨s.tick, step_idle_edge ha h0 hv, tick_config s, tick_inputs s, tick_scan s, fun hp => ?_,
    fun p ps hp hd => ?_, fun p ps hp hd => ?_⟩
  · rw [tick_nil hp]
    exact ⟨rfl, hp⟩
  · rw [tick_due hp hd]
    exact ⟨rfl, rfl⟩
  · rw [tick_wait hp hd, hp]
    exact ⟨rfl, rfl⟩

/-- Settles O39: the fetch of a sampled request refuses the code. -/
theorem reservedOperationIsRefused : Obligations.ReservedOperationIsRefused := by
  intro s hs hst hop
  obtain ⟨u, hu⟩ := step_of_samples hs
  rw [hu, fetchRequest_reserved hst hop, runFetched]

/-! ### The host's duties (R50, R100) -/

section HostDuties

variable {s : State}

/-- A step that samples owes a stable port and an operation's code, and no more. -/
theorem hostContract_of_samples (h : Samples s) :
    HostContract s ↔ s.inputs.stable = true ∧ s.inputs.reqOp ≠ 0b11#2 := by
  have held : InputsHeld s ↔ s.inputs.stable = true := by simp [InputsHeld, h.1]
  simp [HostContract, OwesStability, h, held]

/-- A step inside an evaluation owes the snapshot's inputs at latency 0, and nothing at latency L > 0. -/
theorem hostContract_of_scanning (ha : s.scan.active = true) :
    HostContract s ↔ (s.config.evalLatency = 0 → InputsHeld s) := by
  simp [HostContract, OwesStability, Samples, ha]

/-- A clock edge without a request owes nothing. -/
theorem hostContract_of_idle_edge (ha : s.scan.active = false) (h0 : s.config.evalLatency ≠ 0)
    (hv : s.inputs.reqValid = false) : HostContract s := by
  simp [HostContract, OwesStability, Samples, ha, h0, hv]

/-- A step that samples a stable port with an operation's code completes. -/
theorem step_completes_of_samples (h : Samples s) (hst : s.inputs.stable = true) (hop : s.inputs.reqOp ≠ 0b11#2) :
    ∃ s', step s = .next s' := by
  obtain ⟨u, hu⟩ := step_of_samples h
  obtain ⟨op, hop⟩ := (opCode_cases s.inputs.reqOp).resolve_left hop
  exact ⟨_, by rw [hu, fetchRequest_of_op hst (ofCode_eq_some_iff.mpr hop), runFetched, exec_requestInstr]⟩

end HostDuties

/-- Settles O38: a step inside an evaluation, a step that samples and a clock edge without a request each complete
under the duties owed there; and each of the four ways to complete has them kept. -/
theorem stepCompletesExactlyUnderTheHostContract : Obligations.StepCompletesExactlyUnderTheHostContract := by
  intro s
  constructor
  · intro h
    cases ha : s.scan.active with
    | true => exact ⟨_, step_scanning ha ((hostContract_of_scanning ha).mp h)⟩
    | false =>
      by_cases hs : s.config.evalLatency = 0 ∨ s.inputs.reqValid = true
      · obtain ⟨hst, hop⟩ := (hostContract_of_samples ⟨ha, hs⟩).mp h
        exact step_completes_of_samples ⟨ha, hs⟩ hst hop
      · obtain ⟨h0, hv⟩ := not_or.mp hs
        exact ⟨_, step_idle_edge ha h0 (Bool.eq_false_of_not_eq_true hv)⟩
  · rintro ⟨s', h⟩
    have coded : ∀ op, Op.ofCode s.inputs.reqOp = some op → s.inputs.reqOp ≠ 0b11#2 := fun op hop => by
      rw [ofCode_eq_some_iff.mp hop]
      exact opCode_ne_reserved op
    rcases step_cases h with ⟨ha, hi, -⟩ | ⟨ha, h0, hst, op, hop, -⟩ | ⟨ha, -, hv, hst, op, hop, -⟩ |
      ⟨ha, h0, hv, -⟩
    · exact (hostContract_of_scanning ha).mpr hi
    · exact (hostContract_of_samples ⟨ha, .inl h0⟩).mpr ⟨hst, coded op hop⟩
    · exact (hostContract_of_samples ⟨ha, .inr hv⟩).mpr ⟨hst, coded op hop⟩
    · exact hostContract_of_idle_edge ha h0 hv

/-! ### The trace wires (R82) -/

section TraceWires

variable {s : State} {T : Table} {q : Request} {t : Word} {i : Index}

/-- The loop emits the records of the entries it reached, which are the first ones of the list. -/
theorem scanList_trace_eq (l : List Index) (tr : List TraceRecord) :
    ∃ n, (scanList T q l tr).2 = tr ++ (l.take n).filterMap (closedRecord T q.t) := by
  induction l generalizing tr with
  | nil => exact ⟨0, by simp [scanList]⟩
  | cons i l ih =>
    by_cases ho : Overflows T i
    · exact ⟨0, by simp [scanList_of_overflows ho]⟩
    by_cases hc : Covers T q.t i
    · refine ⟨1, ?_⟩
      rw [scanList_of_covers hc]
      cases hr : closedRecord T q.t i <;> simp [hr]
    · obtain ⟨n, hn⟩ := ih (tr ++ (closedRecord T q.t i).toList)
      refine ⟨n + 1, ?_⟩
      rw [scanList_of_not_stops (not_or.mpr ⟨ho, hc⟩), hn]
      cases hr : closedRecord T q.t i <;> simp [hr]

/-- The trace of an evaluation is the records of the first entries. -/
theorem evaluate_trace_eq (T : Table) (q : Request) :
    ∃ n, (evaluate T q).2 = ((List.finRange 64).take n).filterMap (closedRecord T q.t) :=
  scanList_trace_eq _ []

/-- The record of an entry has the entry's index, mode and config bits (R77). -/
theorem closedRecord_facts {r : TraceRecord} (h : closedRecord T t i = some r) :
    r = ⟨i, modeOf (T.cfg i), T.cfg i, r.base, r.limit, r.matched⟩ := by
  unfold closedRecord at h
  split at h
  · obtain rfl := Option.some.inj h
    rfl
  · simp at h

/-- Among the records of some entries, the one found for entry i is its own. -/
theorem recordAt_filterMap_closedRecord (l : List Index) :
    recordAt (l.filterMap (closedRecord T t)) i = if i ∈ l then closedRecord T t i else none := by
  induction l with
  | nil => rfl
  | cons j l ih =>
    cases hr : closedRecord T t j with
    | none =>
      rw [List.filterMap_cons_none hr, ih]
      by_cases hj : i = j
      · subst hj
        simp [hr]
      · simp [hj]
    | some r =>
      have hindex : r.index = j := (closedRecord_configBits hr).1
      rw [List.filterMap_cons_some hr, recordAt, List.find?_cons, hindex]
      by_cases hj : i = j
      · subst hj
        simp [hr]
      · rw [recordAt] at ih
        simp [hj, Ne.symm hj, ih]

/-- The record read back from the wires of entry i is the one the trace has for it, when that has the table's facts. -/
theorem wireRecord_eq_recordAt {tr : List TraceRecord} (htr : s.traceOut = some tr)
    (hfacts : ∀ r, recordAt tr i = some r → closedRecord T t i = some r) : s.wireRecord T i = recordAt tr i := by
  unfold State.wireRecord State.trValid State.trMatch State.trBase State.trLimit
  rw [htr]
  cases hr : recordAt tr i with
  | none => simp [hr]
  | some r => simpa [hr] using (closedRecord_facts (hfacts r hr)).symm

/-- The records read back from the wires in increasing index are the trace of the answer (R82). -/
theorem wireTrace_of_traceOut (h : s.traceOut = some (evaluate T q).2) : s.wireTrace T = (evaluate T q).2 := by
  obtain ⟨n, hn⟩ := evaluate_trace_eq T q
  rw [hn] at h ⊢
  have hat : ∀ i, recordAt (((List.finRange 64).take n).filterMap (closedRecord T q.t)) i =
      if ((List.finRange 64).take n).elem i then closedRecord T q.t i else none := fun i => by
    simp [recordAt_filterMap_closedRecord]
  have hwire : s.wireRecord T =
      fun i => if ((List.finRange 64).take n).elem i then closedRecord T q.t i else none := by
    funext i
    rw [← hat]
    refine wireRecord_eq_recordAt (t := q.t) h fun r hr => ?_
    rw [hat] at hr
    exact (Option.ite_none_right_eq_some.mp hr).2
  rw [State.wireTrace, hwire, ← List.filterMap_filter,
    ← (List.nodup_finRange 64).take_eq_filter_mem]

/-- An entry without a record has no valid wire and no match (R82). -/
theorem trWires_of_no_record {tr : List TraceRecord} (htr : s.traceOut = some tr) (h : ∀ r ∈ tr, r.index ≠ i) :
    s.trValid i = some false ∧ s.trMatch i = some false := by
  have hnone : recordAt tr i = none := by
    rw [recordAt, List.find?_eq_none]
    simpa using h
  simp [State.trValid, State.trMatch, htr, hnone]

/-- Wires that carry an answer show it, result and trace. -/
theorem wiresShow_of_portOut (h : s.portOut = some (answer s.config T q)) : WiresShow s T q := by
  obtain ⟨hkind, hindex⟩ := resWires_answer h
  have htr := traceOut_answer h
  refine ⟨hkind, hindex, fun ht => ?_, fun ht => ?_⟩
  · rw [if_pos ht] at htr
    exact ⟨wireTrace_of_traceOut htr, fun i => trWires_of_no_record htr⟩
  · rw [ht] at htr
    exact trWires_none htr

end TraceWires

/-- Settles O47: the wires carry the answer to the inputs present, the step puts that answer in `out`, and it leaves the
inputs, so that the wires carry the same after it. -/
theorem combinationalOutputs : Obligations.CombinationalOutputs := by
  intro s op ha h0 hst hop
  have hport := portOut_now h0 ha hst hop
  refine ⟨resValid_now h0, wiresShow_of_portOut hport, s.check ⟨s.inputs.reqAddr, op⟩, ?_, ?_, ?_⟩
  · rw [step_now ha h0, fetchRequest_of_op hst hop, runFetched, exec_requestInstr]
  · rw [State.check, deliver_now _ h0, hport]
  · rw [hport, portOut_now (by rwa [check_config]) (by rwa [check_scan]) (by rwa [check_inputs])
      (by rwa [check_inputs]), check_config, check_inputs]

end Sys2Proof.Machine

/-! PROOFS. The family `40_range_resolver.md`: the range each mode resolves to, when it overflows, and the scan step of
each mode. -/

namespace Sys2Proof.Machine

/-! ### What a resolved entry means for Covers and Overflows -/

section Resolve

variable {T : Table} {i : Index} {b l t : Word}

theorem covers_iff_of_range (h : resolve T i = .range b l) : Covers T t i ↔ b ≤ t ∧ t < l := by
  simp only [Covers, h, Resolved.range.injEq]
  constructor
  · rintro ⟨_, _, ⟨rfl, rfl⟩, ht⟩
    exact ht
  · exact fun ht => ⟨b, l, ⟨rfl, rfl⟩, ht⟩

/-- A range is empty exactly when its base is not below its limit. -/
theorem never_covers_iff_of_range (h : resolve T i = .range b l) : (∀ t, ¬ Covers T t i) ↔ l ≤ b := by
  simp only [covers_iff_of_range h]
  constructor
  · intro hn
    have hb := hn b
    bv_omega
  · intro hle t ht
    bv_omega

theorem not_overflows_of_range (h : resolve T i = .range b l) : ¬ Overflows T i := by
  simp [Overflows, h]

theorem not_overflows_of_disabled (h : resolve T i = .disabled) : ¬ Overflows T i := by
  simp [Overflows, h]

theorem not_covers_of_disabled (h : resolve T i = .disabled) : ¬ Covers T t i := by
  simp [Covers, h]

/-- An entry with classified bounds overflows exactly when the exact limit passes 0xFFFFFFFF (R62). -/
theorem overflows_iff_of_classify {x : Word × Nat} (h : resolve T i = classify x) :
    Overflows T i ↔ maxAddr < x.2 := by
  unfold Overflows
  rw [h]
  constructor
  · rintro ⟨b, l, e⟩
    obtain ⟨-, -, hlt⟩ := classify_overflow_inv e
    exact hlt
  · exact fun hlt => ⟨x.1, x.2, classify_overflows hlt⟩

/-- A limit that is a u32 gives the range up to it. -/
theorem classify_eq_range {n : Nat} (h : l.toNat = n) : classify (b, n) = .range b l := by
  have hn : n ≤ maxAddr := by simp only [maxAddr]; omega
  obtain ⟨w, hw, e⟩ := classify_fits (b := b) hn
  rw [e, BitVec.eq_of_toNat_eq (hw.trans h.symm)]

/-- Every overflow that `resolve` answers has a limit above 0xFFFFFFFF. -/
theorem resolve_overflow_limit {n : Nat} (h : resolve T i = .overflow b n) : maxAddr < n := by
  have limit : ∀ {x : Word × Nat}, resolve T i = classify x → maxAddr < n := fun e => by
    obtain ⟨-, rfl, hlt⟩ := classify_overflow_inv (e.symm.trans h)
    exact hlt
  cases hm : modeOf (T.cfg i) with
  | off => simp [resolve_off hm] at h
  | tor => exact limit (resolve_tor hm)
  | na4 => exact limit (resolve_na4 hm)
  | napot => exact limit (resolve_napot hm)

/-! ### TOR (R58) -/

theorem resolve_tor_range (h : modeOf (T.cfg i) = .tor) : resolve T i = .range (torBase T i) (T.addr i) := by
  rw [resolve_tor h, classify_torBounds]

/-- Every entry but the first has a previous one. -/
theorem index_zero_or_succ (i : Index) : i.val = 0 ∨ ∃ j : Index, i.val = j.val + 1 := by
  rcases Nat.eq_zero_or_pos i.val with h | h
  · exact .inl h
  · exact .inr ⟨⟨i.val - 1, by omega⟩, by simp only; omega⟩

/-- When the own word of a TOR entry is not above its lower bound (R58, R64). -/
theorem addr_le_torBase_iff (T : Table) (i : Index) :
    T.addr i ≤ torBase T i ↔
      ((i.val = 0 ∧ T.addr i = 0) ∨ ∃ j : Index, i.val = j.val + 1 ∧ T.addr i ≤ T.addr j) := by
  constructor
  · intro h
    rcases index_zero_or_succ i with hi | ⟨j, hj⟩
    · rw [torBase_zero hi] at h
      exact .inl ⟨hi, by bv_omega⟩
    · rw [torBase_succ hj] at h
      exact .inr ⟨j, hj, h⟩
  · rintro (⟨hi, ha⟩ | ⟨j, hj, h⟩)
    · rw [torBase_zero hi, ha]
      exact BitVec.le_refl 0
    · rwa [torBase_succ hj]

end Resolve

/-! ### NA4 (R59) -/

theorem classify_na4_fits {a : Word} (h : a.toNat < 0xFFFFFFFC) :
    ∃ l : Word, l.toNat = a.toNat + 4 ∧ classify (na4Bounds a) = .range a l :=
  classify_fits (by simp only [maxAddr]; omega)

theorem classify_na4_overflows {a : Word} (h : 0xFFFFFFFC ≤ a.toNat) :
    classify (na4Bounds a) = .overflow a (a.toNat + 4) :=
  classify_overflows (by simp only [maxAddr]; omega)

/-! ### The run of trailing 1 bits (R61) -/

/-- `ctz1` is at most 32, the bits below it are 1, and the bit at it is 0. -/
theorem ctz1_spec (a : Word) :
    ctz1 a ≤ 32 ∧ (∀ k, k < ctz1 a → a.getLsbD k = true) ∧ (ctz1 a < 32 → a.getLsbD (ctz1 a) = false) := by
  obtain ⟨-, hle, hones, hzero⟩ := onesFrom_spec a 32 0
  rw [Nat.zero_add] at hle hzero
  exact ⟨hle, fun k => hones k k.zero_le, hzero⟩

/-- The run of 1 bits determines `ctz1`. -/
theorem ctz1_eq_of_run {a : Word} {c : Nat} (hc : c ≤ 32) (hones : ∀ k, k < c → a.getLsbD k = true)
    (hzero : c < 32 → a.getLsbD c = false) : ctz1 a = c := by
  obtain ⟨hle, hones', hzero'⟩ := ctz1_spec a
  rcases Nat.lt_trichotomy (ctz1 a) c with h | h | h
  · exact absurd (hones _ h) (by simp [hzero' (by omega)])
  · exact h
  · exact absurd (hones' _ h) (by simp [hzero (by omega)])

theorem one_le_ctz1_iff {a : Word} : 1 ≤ ctz1 a ↔ a.getLsbD 0 = true := by
  obtain ⟨-, hones, hzero⟩ := ctz1_spec a
  constructor
  · exact hones 0
  · intro h
    by_contra hlt
    have h0 : ctz1 a = 0 := by omega
    rw [h0] at hzero
    exact absurd h (ne_true_of_eq_false (hzero (by decide)))

/-! ### NAPOT (R60) -/

/-- `a` aligned down is a u32. -/
theorem toNat_ofNat_alignDown (a : Word) (n : Nat) : (BitVec.ofNat 32 (a.toNat / n * n)).toNat = a.toNat / n * n := by
  rw [BitVec.toNat_ofNat]
  exact Nat.mod_eq_of_lt (lt_of_le_of_lt (Nat.div_mul_le_self _ _) a.isLt)

/-- The base and the exact limit of a NAPOT word, with its size and base as in R60. -/
theorem napotBounds_eq {a : Word} {size base : Nat}
    (heven : a.getLsbD 0 = false → size = 4 ∧ base = a.toNat)
    (hodd : a.getLsbD 0 = true → size = 2 ^ (ctz1 a + 2) ∧ base = a.toNat / size * size) :
    ∃ b : Word, b.toNat = base ∧ napotBounds a = (b, base + size) := by
  cases h : a.getLsbD 0 with
  | false =>
    obtain ⟨rfl, rfl⟩ := heven h
    exact ⟨a, rfl, napotBounds_even h⟩
  | true =>
    obtain ⟨rfl, rfl⟩ := hodd h
    exact ⟨_, toNat_ofNat_alignDown a _, napotBounds_odd h⟩

/-- The bits from n up are all 1 exactly when the aligned block of `2^n` bytes is the topmost one. -/
theorem div_two_pow_eq_top_iff (a : Word) {n : Nat} (hn : n ≤ 32) :
    a.toNat / 2 ^ n = 2 ^ (32 - n) - 1 ↔ ∀ k, n ≤ k → k < 32 → a.getLsbD k = true := by
  constructor
  · intro h k hk hk'
    have hbit := congrArg (fun x => x.testBit (k - n)) h
    simp only [Nat.testBit_div_two_pow, Nat.testBit_two_pow_sub_one] at hbit
    rw [Nat.sub_add_cancel hk] at hbit
    rw [BitVec.getLsbD, hbit, decide_eq_true_eq]
    omega
  · intro h
    refine Nat.eq_of_testBit_eq fun k => ?_
    rw [Nat.testBit_div_two_pow, Nat.testBit_two_pow_sub_one]
    by_cases hk : k + n < 32
    · have hbit : a.toNat.testBit (k + n) = true := h (k + n) (by omega) hk
      rw [hbit, eq_comm, decide_eq_true_eq]
      omega
    · have hbit : a.getLsbD (k + n) = false := BitVec.getLsbD_of_ge a _ (by omega)
      rw [BitVec.getLsbD] at hbit
      rw [hbit, eq_comm, decide_eq_false_iff_not]
      omega

/-- The limit of an aligned block is at most `2^32`, and it is `2^32` exactly for the topmost block. -/
theorem alignedLimit_le (a : Word) {n : Nat} (hn : n ≤ 32) :
    a.toNat / 2 ^ n * 2 ^ n + 2 ^ n ≤ 2 ^ 32 ∧
    (2 ^ 32 ≤ a.toNat / 2 ^ n * 2 ^ n + 2 ^ n ↔ a.toNat / 2 ^ n = 2 ^ (32 - n) - 1) := by
  have hpos : 0 < 2 ^ n := Nat.two_pow_pos n
  have hsplit : 2 ^ 32 = 2 ^ (32 - n) * 2 ^ n := by rw [← pow_add, Nat.sub_add_cancel hn]
  have hlt : a.toNat / 2 ^ n < 2 ^ (32 - n) := by
    rw [Nat.div_lt_iff_lt_mul hpos, ← hsplit]
    exact a.isLt
  rw [← Nat.succ_mul, hsplit, Nat.mul_le_mul_right_iff hpos, Nat.mul_le_mul_right_iff hpos]
  generalize a.toNat / 2 ^ n = q at hlt ⊢
  omega

/-- A block larger than the address space starts at 0. -/
theorem div_two_pow_eq_zero (a : Word) {n : Nat} (hn : 32 ≤ n) : a.toNat / 2 ^ n = 0 :=
  Nat.div_eq_of_lt (lt_of_lt_of_le a.isLt (Nat.pow_le_pow_right (by decide) hn))

/-- The words whose NAPOT range passes 0xFFFFFFFF (R62). -/
theorem napot_overflows_iff (a : Word) :
    maxAddr < (napotBounds a).2 ↔
      ((a = 0xFFFFFFFC#32 ∨ a = 0xFFFFFFFE#32) ∨
       (1 ≤ ctz1 a ∧ ctz1 a ≤ 29 ∧ ∀ k, ctz1 a + 2 ≤ k → k < 32 → a.getLsbD k = true) ∨
       30 ≤ ctz1 a) := by
  cases h : a.getLsbD 0 with
  | false =>
    have hc : ¬ 1 ≤ ctz1 a := by rw [one_le_ctz1_iff, h]; decide
    have hc' : ¬ 30 ≤ ctz1 a := by omega
    have hmod : a.toNat % 2 = 0 := by simpa [BitVec.getLsbD, Nat.testBit_zero] using h
    simp only [napotBounds_even h, na4Bounds, maxAddr, hc, hc', false_and, or_false]
    bv_omega
  | true =>
    have hc : 1 ≤ ctz1 a := one_le_ctz1_iff.mpr h
    have hne : ¬ (a = 0xFFFFFFFC#32 ∨ a = 0xFFFFFFFE#32) := by
      rintro (rfl | rfl) <;> simp at h
    simp only [napotBounds_odd h, hc, hne, true_and, false_or, maxAddr]
    rcases Nat.lt_or_ge (ctz1 a) 30 with hlt | hge
    · rw [← div_two_pow_eq_top_iff a (by omega), ← (alignedLimit_le a (by omega)).2]
      omega
    · have hpow : 2 ^ 32 ≤ 2 ^ (ctz1 a + 2) := Nat.pow_le_pow_right (by decide) (by omega)
      omega

/-- A run of 30 to 32 bits gives a block from 0 that is as large as the address space or larger (R62). -/
theorem classify_napot_wholeSpace {a : Word} (h : 30 ≤ ctz1 a) :
    classify (napotBounds a) = .overflow 0 (2 ^ (ctz1 a + 2)) := by
  have hsize : 2 ^ 32 ≤ 2 ^ (ctz1 a + 2) := Nat.pow_le_pow_right (by decide) (by omega)
  rw [napotBounds_odd (one_le_ctz1_iff.mp (by omega)), div_two_pow_eq_zero a (by omega), Nat.zero_mul, Nat.zero_add]
  exact classify_overflows (by simp only [maxAddr]; omega)

/-- A smaller block that overflows is the topmost one, and its limit is exactly `2^32` (R62). -/
theorem classify_napot_topBlock {a : Word} (h1 : 1 ≤ ctz1 a) (h29 : ctz1 a ≤ 29) (h : maxAddr < (napotBounds a).2) :
    ∃ b : Word, b.toNat = 2 ^ 32 - 2 ^ (ctz1 a + 2) ∧ classify (napotBounds a) = .overflow b (2 ^ 32) := by
  rw [napotBounds_odd (one_le_ctz1_iff.mp h1)] at h ⊢
  obtain ⟨hle, -⟩ := alignedLimit_le a (n := ctz1 a + 2) (by omega)
  have hlimit : a.toNat / 2 ^ (ctz1 a + 2) * 2 ^ (ctz1 a + 2) + 2 ^ (ctz1 a + 2) = 2 ^ 32 := le_antisymm hle h
  refine ⟨_, (toNat_ofNat_alignDown a _).trans (Nat.eq_sub_of_add_eq hlimit), ?_⟩
  rw [classify_overflows h, hlimit]

/-! ### The scan step on classified bounds (R66, R67, R72, R77, R80) -/

section ScanStep

variable {s : State} {cfg : Byte} {m : Mode} {p : Attr} {b l : Word} {n : Nat}

/-- A disabled entry is passed without a record (R79). -/
theorem scanStep_disabled : ScanPasses s [] (s.scanStep cfg .disabled) :=
  emit_advance_scanPasses s none

/-- An overflow ends the scan without a record (R80). -/
theorem scanStep_overflows (h : maxAddr < n) :
    ScanEnds s (.rangeOverflow s.scan.index) [] (s.scanStep cfg (classify (b, n))) := by
  rw [classify_overflows h]
  exact emit_finish_scanEnds s (.rangeOverflow s.scan.index) none

/-- A match ends the scan by the permission bit, with the entry's record (R72, R77). -/
theorem scanStep_hit (hl : l.toNat = n) (h : b ≤ s.scan.req.t ∧ s.scan.req.t < l) :
    ScanEnds s (verdict s.scan.index (cfgByte m p) s.scan.req.op)
      [⟨s.scan.index, m, cfgByte m p, b, l, true⟩] (s.scanStep (cfgByte m p) (classify (b, n))) := by
  rw [classify_eq_range hl, scanStep_stop (judge_hit h), modeOf_cfgByte]
  exact emit_finish_scanEnds s _ (some _)

/-- A miss passes the entry, with its record (R77). -/
theorem scanStep_miss (hl : l.toNat = n) (h : ¬ (b ≤ s.scan.req.t ∧ s.scan.req.t < l)) :
    ScanPasses s [⟨s.scan.index, m, cfgByte m p, b, l, false⟩]
      (s.scanStep (cfgByte m p) (classify (b, n))) := by
  rw [classify_eq_range hl, scanStep_pass (judge_miss h), modeOf_cfgByte]
  exact emit_advance_scanPasses s (some _)

end ScanStep

/-! ### The obligations -/

/-- Settles O10: the bounds of an even word are those of NA4; the run of c trailing 1 bits is `ctz1`, whose aligned
block the bounds of an odd word are. -/
theorem napotRangeFromTrailingOnes : Obligations.NapotRangeFromTrailingOnes := by
  intro T i hcfg
  rw [resolve_napot ((modeOf_napot _).mpr hcfg)]
  refine ⟨fun h0 h => ?_, fun h0 h => ?_, fun c hc hc' hones hzero => ?_⟩
  · rw [napotBounds_even h0]
    exact classify_na4_fits h
  · rw [napotBounds_even h0]
    exact classify_na4_overflows h
  · rw [napotBounds_odd (hones 0 hc), ctz1_eq_of_run hc' hones hzero]
    refine ⟨_, toNat_ofNat_alignDown _ _, ?_⟩
    rw [toNat_ofNat_alignDown]
    exact ⟨classify_fits, classify_overflows⟩

/-- Settles O11: this is what R61's loop guarantees when it starts at bit 0 with 32 rounds. -/
theorem ctz1CountsTrailingOnes : Obligations.Ctz1CountsTrailingOnes := ctz1_spec

/-- Settles O12: an entry overflows when its exact limit passes 0xFFFFFFFF, which Off and TOR entries never do, and the
bounds of the other two modes say for which words and with which base and limit. -/
theorem overflowingEntriesExactly : Obligations.OverflowingEntriesExactly := by
  intro T i
  simp only [← modeOf_na4, ← modeOf_napot]
  refine ⟨?_, fun b l => resolve_overflow_limit, fun hm h => ?_, fun hm h => ?_, fun hm h => ?_, fun hm h => ?_,
    fun hm h1 h29 hov => ?_⟩
  · cases hm : modeOf (T.cfg i) with
    | off => simp [not_overflows_of_disabled (resolve_off hm)]
    | tor => simp [not_overflows_of_range (resolve_tor_range hm)]
    | na4 =>
      simp only [overflows_iff_of_classify (resolve_na4 hm), na4Bounds, maxAddr, reduceCtorEq, true_and, false_and,
        or_false]
      omega
    | napot =>
      simp only [overflows_iff_of_classify (resolve_napot hm), napot_overflows_iff, reduceCtorEq, true_and, false_and,
        false_or]
  · rw [resolve_na4 hm, classify_na4_overflows h]
  · rw [resolve_napot hm, h]
    decide
  · rw [resolve_napot hm, h]
    decide
  · rw [resolve_napot hm, classify_napot_wholeSpace h]
  · rw [resolve_napot hm]
    exact classify_napot_topBlock h1 h29 ((overflows_iff_of_classify (resolve_napot hm)).mp hov)

/-- Settles O14: a range that `resolve` answers is the bounds of its mode. -/
theorem rangesAndTheirWords : Obligations.RangesAndTheirWords := by
  intro T i b l h
  simp only [← modeOf_na4, ← modeOf_napot, ← modeOf_tor]
  have na4 : classify (na4Bounds (T.addr i)) = .range b l → l.toNat = b.toNat + 4 ∧ b = T.addr i := fun e => by
    obtain ⟨rfl, hl⟩ := classify_range_inv e
    exact ⟨hl.symm, rfl⟩
  refine ⟨fun hm => ?_, fun hm h0 => ?_, fun hm h0 => ?_, fun hm => ?_⟩
  · exact na4 (resolve_na4 hm ▸ h)
  · rw [resolve_napot hm, napotBounds_even h0] at h
    exact na4 h
  · rw [resolve_napot hm, napotBounds_odd h0] at h
    obtain ⟨rfl, hl⟩ := classify_range_inv h
    rw [BitVec.le_def, BitVec.lt_def, toNat_ofNat_alignDown, ← hl]
    exact ⟨rfl, Nat.div_mul_le_self _ _, Nat.lt_div_mul_add (Nat.two_pow_pos _)⟩
  · rw [never_covers_iff_of_range (resolve_tor_range hm), addr_le_torBase_iff]

/-- Settles O33: NAPOT is the scan step on the bounds of its word. -/
theorem napotIsExamined : Obligations.NapotIsExamined := by
  intro p a s size base _ heven hodd
  obtain ⟨c, hc, hbounds⟩ := napotBounds_eq heven hodd
  refine ⟨s.scanStep (cfgByte .napot p) (classify (napotBounds a)), rfl, ?_⟩
  rw [hbounds]
  refine ⟨scanStep_overflows, fun b l hb hl hge hlt => ?_, fun b l hb hl hmiss => ?_⟩
  · obtain rfl := BitVec.eq_of_toNat_eq (hb.trans hc.symm)
    exact scanStep_hit hl ⟨hge, hlt⟩
  · obtain rfl := BitVec.eq_of_toNat_eq (hb.trans hc.symm)
    exact scanStep_miss hl hmiss

/-- Settles O7: the mode alone disables an Off entry, and the base of a TOR entry after it is its address word, whatever
its mode. -/
theorem offEntryIsDisabled : Obligations.OffEntryIsDisabled := by
  intro T i hcfg
  have hoff := resolve_off ((modeOf_off _).mpr hcfg)
  refine ⟨hoff, fun t => not_covers_of_disabled hoff, not_overflows_of_disabled hoff, fun j hj htor => ?_⟩
  rw [resolve_tor_range ((modeOf_tor _).mpr htor), torBase_succ hj]

/-- Settles O8: a TOR entry resolves to the range from `torBase` to its own word. -/
theorem torRangeFromPreviousWord : Obligations.TorRangeFromPreviousWord := by
  intro T i hcfg
  have hrange := resolve_tor_range ((modeOf_tor _).mpr hcfg)
  refine ⟨fun hi => ?_, fun j hj => ?_, fun j hj hle => ?_, fun h0 => ?_, not_overflows_of_range hrange,
    not_covers_top T i⟩
  · rw [hrange, torBase_zero hi]
  · rw [hrange, torBase_succ hj]
  · exact (never_covers_iff_of_range hrange).mpr (by rwa [torBase_succ hj])
  · exact (never_covers_iff_of_range hrange).mpr (by rw [h0, BitVec.le_def]; exact Nat.zero_le _)

/-- Settles O9: the exact limit `a + 4` is a u32 exactly below 0xFFFFFFFC. -/
theorem na4RangeIsFourBytes : Obligations.Na4RangeIsFourBytes := by
  intro T i hcfg
  rw [resolve_na4 ((modeOf_na4 _).mpr hcfg)]
  exact ⟨classify_na4_fits, classify_na4_overflows⟩

/-- Settles O13: the NAPOT bounds of an even word are its NA4 bounds. -/
theorem na4AndNapotAgreeOnEvenWords : Obligations.Na4AndNapotAgreeOnEvenWords := by
  intro T T' i haddr heven hna4 hnapot
  rw [resolve_na4 ((modeOf_na4 _).mpr hna4), resolve_napot ((modeOf_napot _).mpr hnapot), ← haddr,
    napotBounds_even heven]

/-- Settles O30: OFF is the scan step on a disabled entry. -/
theorem offIsSkipped : Obligations.OffIsSkipped := fun p _ s _ =>
  ⟨s.scanStep (cfgByte .off p) .disabled, rfl, scanStep_disabled⟩

/-- Settles O31: TOR is the scan step on the bounds from `torBase`, which is the base the statement pins. -/
theorem torIsExamined : Obligations.TorIsExamined := by
  intro p a b s _ hzero hsucc
  have hb : torBase s.scan.table s.scan.index = b := by
    rcases index_zero_or_succ s.scan.index with hi | ⟨j, hj⟩
    · rw [torBase_zero hi, hzero hi]
    · rw [torBase_succ hj, hsucc j hj]
  refine ⟨s.scanStep (cfgByte .tor p) (classify (torBounds s.scan.table s.scan.index a)), rfl, ?_⟩
  rw [torBounds, hb]
  exact ⟨scanStep_hit rfl, scanStep_miss rfl⟩

/-- Settles O32: NA4 is the scan step on the bounds of its word. -/
theorem na4IsExamined : Obligations.Na4IsExamined := by
  intro p a s _
  exact ⟨s.scanStep (cfgByte .na4 p) (classify (na4Bounds a)), rfl,
    fun h => scanStep_overflows (by simp only [maxAddr]; omega),
    fun _ hl hge hlt => scanStep_hit hl ⟨hge, hlt⟩, fun _ hl => scanStep_miss hl⟩

end Sys2Proof.Machine

/-! PROOFS. The family `41_access_evaluator.md`: the entry that decides an evaluation, the result and the trace it
gives, and the steps inside an evaluation. -/

namespace Sys2Proof.Machine

/-! ### The entries up to an index -/

theorem mem_finRange_take_succ {i j : Index} : j ∈ (List.finRange 64).take (i + 1) ↔ j ≤ i := by
  rw [List.take_succ_eq_append_getElem (by simp), List.getElem_finRange, List.mem_append, mem_finRange_take,
    List.mem_singleton]
  exact le_iff_lt_or_eq.symm

/-- The entries up to i are the first i + 1 entries. -/
theorem finRange_filter_le (i : Index) :
    ((List.finRange 64).filter fun j => decide (j ≤ i)) = (List.finRange 64).take (i + 1) := by
  rw [(List.nodup_finRange 64).take_eq_filter_mem]
  exact List.filter_congr fun j _ => by simp [mem_finRange_take_succ]

/-! ### The entry that decides (R74, R75) -/

section FirstStop

variable {T : Table} {q : Request} {t : Word} {i : Index}

theorem firstStop_eq_none_iff : firstStop T t = none ↔ ∀ i, ¬ Stops T t i := by
  simp only [firstStop, List.find?_eq_none, stops_iff, List.mem_finRange, forall_const]

theorem firstStop_eq_some_iff : firstStop T t = some i ↔ FirstStop T t i := by
  rw [firstStop, List.find?_eq_some_iff_getElem, stops_iff, FirstStop]
  refine and_congr_right fun _ => ?_
  simp only [List.getElem_finRange, Bool.not_eq_true', ← Bool.not_eq_true, stops_iff]
  constructor
  · rintro ⟨k, hk, rfl, hbelow⟩ j hj
    exact hbelow j hj
  · exact fun hbelow => ⟨i, by simp, rfl, fun k hk => hbelow _ hk⟩

/-- Either nothing ends the scan, or a first entry does. -/
theorem firstStop_cases (T : Table) (t : Word) : (∀ i, ¬ Stops T t i) ∨ ∃ i, FirstStop T t i := by
  cases h : firstStop T t with
  | none => exact .inl (firstStop_eq_none_iff.mp h)
  | some i => exact .inr ⟨i, firstStop_eq_some_iff.mp h⟩

/-! ### The result and the trace by the entry that decides (R65, R72 to R74) -/

/-- Nothing ends the scan: `FaultUnmapped`, with the records of all entries. -/
theorem evaluate_of_not_stops (h : ∀ i, ¬ Stops T q.t i) :
    evaluate T q = (.faultUnmapped, (List.finRange 64).filterMap (closedRecord T q.t)) := by
  rw [evaluate, ← List.append_nil (List.finRange 64), scanList_append_of_not_stops fun j _ => h j, scanList,
    List.append_nil, List.nil_append]

/-- The scan gets to its first stop with the records of the entries below. -/
theorem evaluate_of_firstStop (h : FirstStop T q.t i) :
    evaluate T q = scanList T q (i :: (List.finRange 64).drop (i + 1))
      (((List.finRange 64).take i).filterMap (closedRecord T q.t)) := by
  obtain ⟨-, hbelow⟩ := h
  have hpass : ∀ j ∈ (List.finRange 64).take i, ¬ Stops T q.t j := fun j hj => hbelow j (mem_finRange_take.mp hj)
  rw [← finRange_drop_index, ← List.nil_append (List.filterMap _ _), ← scanList_append_of_not_stops hpass,
    List.take_append_drop, evaluate]

theorem evaluate_of_overflows (h : FirstStop T q.t i) (ho : Overflows T i) :
    evaluate T q = (.rangeOverflow i, ((List.finRange 64).take (i + 1)).filterMap (closedRecord T q.t)) := by
  have hnone : closedRecord T q.t i = none := by
    obtain ⟨b, l, hr⟩ := ho
    rw [closedRecord, hr]
  rw [evaluate_of_firstStop h, scanList_of_overflows ho, finRange_take_succ_filterMap, hnone, Option.toList_none,
    List.append_nil]

theorem evaluate_of_covers (h : FirstStop T q.t i) (hc : Covers T q.t i) :
    evaluate T q = (verdict i (T.cfg i) q.op,
      ((List.finRange 64).take (i + 1)).filterMap (closedRecord T q.t)) := by
  rw [evaluate_of_firstStop h, scanList_of_covers hc, finRange_take_succ_filterMap]

end FirstStop

/-! ### The verdict at a matching entry (R68, R72) -/

theorem verdict_of_permitted {i : Index} {cfg : Byte} {op : Op} (h : permitted cfg op = true) :
    verdict i cfg op = .granted i := if_pos h

theorem verdict_of_not_permitted {i : Index} {cfg : Byte} {op : Op} (h : permitted cfg op = false) :
    verdict i cfg op = .fault i := if_neg (ne_true_of_eq_false h)

theorem verdict_cases (i : Index) (cfg : Byte) (op : Op) :
    verdict i cfg op = .granted i ∨ verdict i cfg op = .fault i := by
  cases h : permitted cfg op with
  | true => exact .inl (verdict_of_permitted h)
  | false => exact .inr (verdict_of_not_permitted h)

@[simp] theorem verdict_ne_faultUnmapped (i : Index) (cfg : Byte) (op : Op) :
    verdict i cfg op ≠ .faultUnmapped := by
  rcases verdict_cases i cfg op with h | h <;> simp [h]

@[simp] theorem verdict_ne_rangeOverflow (i j : Index) (cfg : Byte) (op : Op) :
    verdict i cfg op ≠ .rangeOverflow j := by
  rcases verdict_cases i cfg op with h | h <;> simp [h]

/-- A verdict names its own entry, whatever the permission bit is. -/
@[simp] theorem verdict_granted_or_fault_iff {i j : Index} {cfg : Byte} {op : Op} :
    (verdict i cfg op = .granted j ∨ verdict i cfg op = .fault j) ↔ i = j := by
  rcases verdict_cases i cfg op with h | h <;> simp [h]

/-! ### What the course of a scan depends on (R68, R72) -/

/-- The mode is read from bits 4:3 alone (R45, R46). -/
theorem modeOf_and_modeBits : ∀ cfg : Byte, modeOf (cfg &&& 0x18#8) = modeOf cfg := by decide

/-- What entry j resolves to is a function of its config byte and of the address words up to j. -/
theorem resolve_congr_upTo {T T' : Table} {j : Index} (hcfg : T.cfg j = T'.cfg j)
    (haddr : ∀ k, k ≤ j → T.addr k = T'.addr k) : resolve T j = resolve T' j := by
  have hbase : torBase T j = torBase T' j := by
    unfold torBase
    split
    · rfl
    · exact haddr _ (by simp [Fin.le_def])
  simp only [resolve, torBounds, hcfg, haddr j le_rfl, hbase]

/-- The result and the trace of a scan that stops at entry i are a function of the entries up to i. -/
theorem evaluate_congr_upTo {T T' : Table} {q : Request} {i : Index} (h : FirstStop T q.t i)
    (hcfg : ∀ j, j ≤ i → T.cfg j = T'.cfg j) (hres : ∀ j, j ≤ i → resolve T j = resolve T' j) :
    evaluate T q = evaluate T' q := by
  have hov : ∀ j, j ≤ i → (Overflows T j ↔ Overflows T' j) := fun j hj => by simp only [Overflows, hres j hj]
  have hco : ∀ j, j ≤ i → (Covers T q.t j ↔ Covers T' q.t j) := fun j hj => by simp only [Covers, hres j hj]
  have hst : ∀ j, j ≤ i → (Stops T q.t j ↔ Stops T' q.t j) := fun j hj => or_congr (hov j hj) (hco j hj)
  have htrace : ((List.finRange 64).take (i + 1)).filterMap (closedRecord T q.t) =
      ((List.finRange 64).take (i + 1)).filterMap (closedRecord T' q.t) :=
    List.filterMap_congr fun j hj => by
      have hj := mem_finRange_take_succ.mp hj
      simp only [closedRecord, hres j hj, hcfg j hj]
  obtain ⟨hstop, hbelow⟩ := id h
  have h' : FirstStop T' q.t i := ⟨(hst i le_rfl).mp hstop, fun j hj => mt (hst j hj.le).mpr (hbelow j hj)⟩
  rcases hstop with ho | hc
  · rw [evaluate_of_overflows h ho, evaluate_of_overflows h' ((hov i le_rfl).mp ho), htrace]
  · rw [evaluate_of_covers h hc, evaluate_of_covers h' ((hco i le_rfl).mp hc), htrace, hcfg i le_rfl]

/-! ### A check of any operation (R69 to R71) -/

/-- The instruction of a request completes with the answer of R69 to R71 and changes nothing but the outputs. -/
theorem requestInstr_answers (op : Op) (t : Word) (s : State) :
    ∃ (s' : State) (o : Output), exec (requestInstr op t) s = .next s' ∧ Answered s o s' ∧
      (∀ i, FirstStop s.inputs.table t i → Covers s.inputs.table t i →
        o.result = verdict i (s.inputs.table.cfg i) op) ∧
      (∀ i, FirstStop s.inputs.table t i → Overflows s.inputs.table i → o.result = .rangeOverflow i) ∧
      ((∀ i, ¬ Stops s.inputs.table t i) → o.result = .faultUnmapped) := by
  refine ⟨s.check ⟨t, op⟩, answer s.config s.inputs.table ⟨t, op⟩, exec_requestInstr op t s, deliver_answered s _,
    fun i h hc => ?_, fun i h ho => ?_, fun h => ?_⟩
  · exact congrArg Prod.fst (evaluate_of_covers (q := ⟨t, op⟩) h hc)
  · exact congrArg Prod.fst (evaluate_of_overflows (q := ⟨t, op⟩) h ho)
  · exact congrArg Prod.fst (evaluate_of_not_stops (q := ⟨t, op⟩) h)

/-! ### A scan step does not read whether a scan is active (notes/assumptions/4.md) -/

/-- `s` at `Scanning(index)` of the scan it holds. -/
def State.activate (s : State) : State := { s with scan := { s.scan with active := true } }

/-- Before entry 63 the scan goes on to the next entry (R29). -/
theorem advance_next {s : State} (h : s.scan.index.val < 63) :
    s.advance = { s with scan := { s.scan with active := true, index := ⟨s.scan.index.val + 1, by omega⟩ } } :=
  dif_pos h

theorem activate_emit_finish (s : State) (record : Option TraceRecord) (r : AccessResult) :
    (s.activate.emit record).finish r = (s.emit record).finish r := by
  rw [emit_finish_eq_conclude, emit_finish_eq_conclude]
  exact conclude_withScan s _ _

theorem activate_emit_advance (s : State) (record : Option TraceRecord) :
    (s.activate.emit record).advance = (s.emit record).advance := by
  by_cases h : s.scan.index.val < 63
  · exact (advance_next (s := s.activate.emit record) h).trans (advance_next (s := s.emit record) h).symm
  · rw [advance_last (s := s.activate.emit record) h, advance_last (s := s.emit record) h, activate_emit_finish]

theorem activate_scanStep (s : State) (cfg : Byte) (r : Resolved) : s.activate.scanStep cfg r = s.scanStep cfg r := by
  cases h : judge s.scan.index cfg r s.scan.req with
  | pass record => rw [scanStep_pass h, scanStep_pass (s := s.activate) h, activate_emit_advance]
  | stop result record => rw [scanStep_stop h, scanStep_stop (s := s.activate) h, activate_emit_finish]

/-! ### The obligations -/

/-- Settles O16: a covering first stop gives the verdict of the operation's bit; and the result is a function of what
the entries resolve to and of that bit. -/
theorem onlyTheOperationsBitIsRead : Obligations.OnlyTheOperationsBitIsRead := by
  constructor
  · intro T t i h hc
    have hverdict : ∀ op, (evaluate T ⟨t, op⟩).1 = verdict i (T.cfg i) op := fun op =>
      congrArg Prod.fst (evaluate_of_covers (q := ⟨t, op⟩) h hc)
    exact ⟨hverdict .read, hverdict .write, hverdict .execute⟩
  · intro T T' t h
    have hmode : ∀ i, modeOf (T.cfg i) = modeOf (T'.cfg i) := fun i => by
      rw [← modeOf_and_modeBits, (h i).2, modeOf_and_modeBits]
    have hres := resolve_congr (fun i => (h i).1) hmode
    exact ⟨fun hr => evaluate_result_congr hres hr, fun hw => evaluate_result_congr hres hw,
      fun hx => evaluate_result_congr hres hx⟩

/-- Settles O17: the first stop is a function of the table and the address, and so is the trace up to it; the operation
only selects the verdict. -/
theorem operationTakesNoPartInTheMatch : Obligations.OperationTakesNoPartInTheMatch := by
  intro T t op op'
  rcases firstStop_cases T t with hn | ⟨i, h⟩
  · simp [evaluate_of_not_stops (q := ⟨t, op⟩) hn, evaluate_of_not_stops (q := ⟨t, op'⟩) hn]
  · rcases h.1 with ho | hc
    · simp [evaluate_of_overflows (q := ⟨t, op⟩) h ho, evaluate_of_overflows (q := ⟨t, op'⟩) h ho]
    · simp [evaluate_of_covers (q := ⟨t, op⟩) h hc, evaluate_of_covers (q := ⟨t, op'⟩) h hc]

/-- Settles O18: CHECK.R is the check of a Read, whose bit is bit 0. -/
theorem checkReadAnswers : Obligations.CheckReadAnswers := requestInstr_answers .read

/-- Settles O19: CHECK.W is the check of a Write, whose bit is bit 1. -/
theorem checkWriteAnswers : Obligations.CheckWriteAnswers := requestInstr_answers .write

/-- Settles O20: CHECK.X is the check of an Execute, whose bit is bit 2. -/
theorem checkExecuteAnswers : Obligations.CheckExecuteAnswers := requestInstr_answers .execute

/-- Settles O21: an Off entry never ends the scan and has no record. -/
theorem unmatchedIsUnmapped : Obligations.UnmatchedIsUnmapped := by
  constructor
  · intro T q h
    rw [evaluate_of_not_stops h]
  · intro T q h
    have hoff : ∀ i, resolve T i = .disabled := fun i => resolve_off ((modeOf_off _).mpr (h i))
    have hpass : ∀ i, ¬ Stops T q.t i := fun i =>
      not_or.mpr ⟨not_overflows_of_disabled (hoff i), not_covers_of_disabled (hoff i)⟩
    have hempty : (List.finRange 64).filterMap (closedRecord T q.t) = [] :=
      List.filterMap_eq_nil_iff.mpr fun i _ => by rw [closedRecord, hoff i]
    rw [evaluate_of_not_stops hpass, hempty]

/-- Settles O22: the first stop decides, by its overflow or its verdict; the higher entry takes no part. -/
theorem firstMatchWins : Obligations.FirstMatchWins := by
  constructor
  · intro T q i h
    refine ⟨fun ho => ?_, fun hc => ?_⟩
    · rw [evaluate_of_overflows h ho]
    · rw [evaluate_of_covers h hc]
      exact verdict_cases i _ _
  · intro T q i j _ hbelow hc _ hdeny _
    rw [evaluate_of_covers ⟨.inr hc, hbelow⟩ hc]
    exact verdict_of_not_permitted hdeny

/-- Settles O23: the priority encoder gives the first stop, and the entries up to it are those the scan examined. -/
theorem closedFormEqualsScan : Obligations.ClosedFormEqualsScan := by
  intro T q
  unfold closedForm
  cases hf : firstStop T q.t with
  | none => exact (evaluate_of_not_stops (firstStop_eq_none_iff.mp hf)).symm
  | some j =>
    have h := firstStop_eq_some_iff.mp hf
    simp only [finRange_filter_le]
    by_cases ho : Overflows T j
    · rw [if_pos (overflows_iff.mpr ho), evaluate_of_overflows h ho]
    · rw [if_neg (mt overflows_iff.mp ho), evaluate_of_covers h (h.1.resolve_left ho), verdict]

/-- Settles O25: a covering first stop gives its verdict, and what the scan reads lies in the entries up to the one it
stops at. -/
theorem scanStopsAtTheFirstMatch : Obligations.ScanStopsAtTheFirstMatch := by
  constructor
  · intro T q i h hc
    rw [evaluate_of_covers h hc]
    exact ⟨verdict_of_permitted, verdict_of_not_permitted⟩
  · intro T T' q i h hcfg haddr
    exact evaluate_congr_upTo h hcfg fun j hj =>
      resolve_congr_upTo (hcfg j hj) fun k hk => haddr k (hk.trans hj)

/-- Settles O34: the fetch inside an evaluation gives the instruction the snapshot's entry decodes to. -/
theorem stepRunsTheEntryUnderExamination : Obligations.StepRunsTheEntryUnderExamination := by
  intro s i ha hheld hi
  obtain rfl := Except.ok.inj hi
  rw [step, if_pos ha, fetchEntry_held hheld, runFetched]

/-- Settles O51: each mode instruction is a scan step at the scan's index, request and snapshot, which the activation
leaves as they are. -/
theorem modeInstructionsDoNotReadWhetherAScanIsActive :
    Obligations.ModeInstructionsDoNotReadWhetherAScanIsActive := by
  rintro p a s _ rfl
  have hstep : ∀ cfg r, Host.Outcome.next (s.scanStep cfg r) =
      (.next (s.activate.scanStep cfg r) : Host.Outcome State Fault Refusal) := fun cfg r => by
    rw [activate_scanStep]
  exact ⟨hstep _ _, hstep _ _, hstep _ _, hstep _ _⟩

end Sys2Proof.Machine

/-! PROOFS. The family `42_trace.md`: which records the trace has, how they stand on the wires, and what a block
without the trace output shares with one that has it. -/

namespace Sys2Proof.Machine

/-! ### The records of the entries the scan reached (R77 to R80) -/

section Trace

variable {T : Table} {q : Request} {t : Word} {i : Index} {r : TraceRecord}

/-- The trace is the records of the entries the scan reached, which are those with no stop below them. -/
theorem evaluate_trace_eq_reached (T : Table) (q : Request) :
    ∃ n, (evaluate T q).2 = ((List.finRange 64).take n).filterMap (closedRecord T q.t) ∧
      ∀ i, i ∈ (List.finRange 64).take n ↔ ∀ j, j < i → ¬ Stops T q.t j := by
  rcases firstStop_cases T q.t with hn | ⟨k, h⟩
  · refine ⟨64, ?_, fun i => ?_⟩
    · rw [evaluate_of_not_stops hn, List.take_of_length_le (by simp)]
    · rw [List.take_of_length_le (by simp)]
      exact iff_of_true (List.mem_finRange i) fun j _ => hn j
  · obtain ⟨hstop, hbelow⟩ := id h
    refine ⟨k + 1, ?_, fun i => ?_⟩
    · rcases hstop with ho | hc
      · rw [evaluate_of_overflows h ho]
      · rw [evaluate_of_covers h hc]
    · rw [mem_finRange_take_succ]
      exact ⟨fun hi j hj => hbelow j (lt_of_lt_of_le hj hi), fun hi => not_lt.mp fun hk => hi k hk hstop⟩

/-- The record an entry has is that of the range it resolves to (R77). -/
theorem closedRecord_eq_some_iff : closedRecord T t i = some r ↔
    ∃ b l, resolve T i = .range b l ∧ r = recordOf i (T.cfg i) b l t := by
  unfold closedRecord
  cases resolve T i with
  | disabled => simp
  | overflow b l => simp
  | range b l => simp [eq_comm]

/-- The trace has the record of an entry exactly when the entry resolves to a range and the scan reached it. -/
theorem mem_evaluate_trace_iff : r ∈ (evaluate T q).2 ↔
    closedRecord T q.t r.index = some r ∧ ∀ j, j < r.index → ¬ Stops T q.t j := by
  obtain ⟨n, htrace, hreached⟩ := evaluate_trace_eq_reached T q
  rw [htrace, List.mem_filterMap]
  constructor
  · rintro ⟨i, hi, hr⟩
    obtain ⟨rfl, -⟩ := closedRecord_configBits hr
    exact ⟨hr, (hreached _).mp hi⟩
  · exact fun ⟨hr, hi⟩ => ⟨r.index, (hreached _).mpr hi, hr⟩

/-- The records stand in increasing index order. -/
theorem evaluate_trace_pairwise (T : Table) (q : Request) :
    ((evaluate T q).2.map fun r => r.index).Pairwise (· < ·) := by
  obtain ⟨n, htrace⟩ := evaluate_trace_eq T q
  have hlt : ((List.finRange 64).take n).Pairwise (· < ·) :=
    (List.pairwise_lt_finRange 64).sublist (List.take_sublist n _)
  rw [htrace, List.pairwise_map, List.pairwise_filterMap]
  refine hlt.imp fun hij r hr r' hr' => ?_
  rwa [(closedRecord_configBits hr).1, (closedRecord_configBits hr').1]

/-- An entry has a record exactly when it resolves to a range and the scan reached it (R78, R79, R80). -/
theorem exists_record_iff : (∃ r ∈ (evaluate T q).2, r.index = i) ↔
    (∃ b l, resolve T i = .range b l) ∧ ∀ j, j < i → ¬ Stops T q.t j := by
  constructor
  · rintro ⟨r, hr, rfl⟩
    obtain ⟨hrec, hreached⟩ := mem_evaluate_trace_iff.mp hr
    obtain ⟨b, l, hres, -⟩ := closedRecord_eq_some_iff.mp hrec
    exact ⟨⟨b, l, hres⟩, hreached⟩
  · rintro ⟨⟨b, l, hres⟩, hreached⟩
    exact ⟨recordOf i (T.cfg i) b l q.t,
      mem_evaluate_trace_iff.mpr ⟨closedRecord_eq_some_iff.mpr ⟨b, l, hres, rfl⟩, hreached⟩, rfl⟩

/-- A record holds the facts of its entry (R77). -/
theorem record_facts (h : closedRecord T t r.index = some r) :
    resolve T r.index = .range r.base r.limit ∧ r.configBits = T.cfg r.index ∧
      r.mode = modeOf (T.cfg r.index) ∧ r.mode ≠ .off ∧ (r.matched = true ↔ r.base ≤ t ∧ t < r.limit) := by
  obtain ⟨b, l, hres, hr⟩ := closedRecord_eq_some_iff.mp h
  have hbase : r.base = b := congrArg TraceRecord.base hr
  have hlimit : r.limit = l := congrArg TraceRecord.limit hr
  have hmode : r.mode = modeOf (T.cfg r.index) := congrArg TraceRecord.mode hr
  have hmatched : r.matched = inRange b l t := congrArg TraceRecord.matched hr
  refine ⟨by rw [hbase, hlimit, hres], congrArg TraceRecord.configBits hr, hmode, fun hoff => ?_, ?_⟩
  · rw [resolve_off (hmode.symm.trans hoff)] at hres
    cases hres
  · rw [hmatched, hbase, hlimit, inRange_iff]

/-- The record of an entry is matched exactly when the entry covers the target (R67, R77). -/
theorem record_matched_iff (h : closedRecord T t r.index = some r) :
    r.matched = true ↔ Covers T t r.index := by
  obtain ⟨hres, -, -, -, hmatched⟩ := record_facts h
  rw [hmatched, covers_iff_of_range hres]

/-- The scan ends with `Granted` or `Fault` exactly at a first stop that covers the target (R72). -/
theorem evaluate_granted_or_fault_iff :
    ((evaluate T q).1 = .granted i ∨ (evaluate T q).1 = .fault i) ↔ FirstStop T q.t i ∧ Covers T q.t i := by
  constructor
  · intro hres
    rcases firstStop_cases T q.t with hn | ⟨k, h⟩
    · simp [evaluate_of_not_stops hn] at hres
    rcases h.1 with ho | hc
    · simp [evaluate_of_overflows h ho] at hres
    · rw [evaluate_of_covers h hc] at hres
      obtain rfl := verdict_granted_or_fault_iff.mp hres
      exact ⟨h, hc⟩
  · rintro ⟨h, hc⟩
    rw [evaluate_of_covers h hc]
    exact verdict_cases i _ _

/-- There is a matched record of an entry exactly when the scan reached the entry and it covers the target. -/
theorem exists_matched_record_iff : (∃ r ∈ (evaluate T q).2, r.index = i ∧ r.matched = true) ↔
    FirstStop T q.t i ∧ Covers T q.t i := by
  constructor
  · rintro ⟨r, hr, rfl, hm⟩
    obtain ⟨hrec, hreached⟩ := mem_evaluate_trace_iff.mp hr
    have hc := (record_matched_iff hrec).mp hm
    exact ⟨⟨.inr hc, hreached⟩, hc⟩
  · rintro ⟨⟨-, hreached⟩, hc⟩
    obtain ⟨b, l, hres, -⟩ := id hc
    obtain ⟨r, hr, rfl⟩ := exists_record_iff.mpr ⟨⟨b, l, hres⟩, hreached⟩
    exact ⟨r, hr, rfl, (record_matched_iff (mem_evaluate_trace_iff.mp hr).1).mpr hc⟩

end Trace

/-- Settles O27: the trace is the records of the entries the scan reached; and a matched record and a verdict both say
that the first stop covers the target. -/
theorem traceHasExaminedRanges : Obligations.TraceHasExaminedRanges := fun T q =>
  ⟨evaluate_trace_pairwise T q, fun _ => exists_record_iff,
    fun _ hr => record_facts (mem_evaluate_trace_iff.mp hr).1,
    fun _ => evaluate_granted_or_fault_iff.trans exists_matched_record_iff.symm⟩

/-! ### The trace output present or not (R81) -/

section SameButTrace

variable {a b : State} {o o' : Output}

theorem setHasTrace_sameButTrace (s : State) (v : Bool) : SameButTrace s (s.setHasTrace v) :=
  ⟨rfl, rfl, rfl, rfl, rfl⟩

/-- An answer with the same result, delivered to both, changes the same fields of both. -/
theorem deliver_sameButTrace (h : SameButTrace a b) (ho : o.result = o'.result) :
    SameButTrace (a.deliver o) (b.deliver o') := by
  obtain ⟨hlat, hins, hscan, hout, hpipe⟩ := h
  by_cases h0 : a.config.evalLatency = 0
  · rw [deliver_now o h0, deliver_now o' (hlat ▸ h0)]
    exact ⟨hlat, hins, hscan, congrArg some ho, hpipe⟩
  · rw [deliver_later o h0, deliver_later o' (hlat ▸ h0)]
    exact ⟨hlat, hins, hscan, hout, by simp [hpipe, hlat, ho]⟩

/-- Both may be given one scan. -/
theorem withScan_sameButTrace (h : SameButTrace a b) (c : Scan) :
    SameButTrace { a with scan := c } { b with scan := c } := by
  obtain ⟨hlat, hins, -, hout, hpipe⟩ := h
  exact ⟨hlat, hins, rfl, hout, hpipe⟩

theorem emit_sameButTrace (h : SameButTrace a b) (record : Option TraceRecord) :
    SameButTrace (a.emit record) (b.emit record) := by
  obtain ⟨-, -, hscan, -, -⟩ := id h
  rw [State.emit, State.emit, hscan]
  exact withScan_sameButTrace h _

theorem finish_sameButTrace (h : SameButTrace a b) (r : AccessResult) :
    SameButTrace (a.finish r) (b.finish r) :=
  withScan_sameButTrace (deliver_sameButTrace h (o := Output.make a.config r a.scan.trace)
    (o' := Output.make b.config r b.scan.trace) rfl) Scan.idle

theorem advance_sameButTrace (h : SameButTrace a b) : SameButTrace a.advance b.advance := by
  obtain ⟨-, -, hscan, -, -⟩ := id h
  by_cases hi : a.scan.index.val < 63
  · rw [advance_next hi, advance_next (hscan ▸ hi)]
    simp only [hscan]
    exact withScan_sameButTrace h _
  · rw [advance_last hi, advance_last (hscan ▸ hi)]
    exact finish_sameButTrace h _

theorem scanStep_sameButTrace (h : SameButTrace a b) (cfg : Byte) (r : Resolved) :
    SameButTrace (a.scanStep cfg r) (b.scanStep cfg r) := by
  obtain ⟨-, -, hscan, -, -⟩ := id h
  cases hj : judge a.scan.index cfg r a.scan.req with
  | pass record =>
    rw [scanStep_pass hj, scanStep_pass (hscan ▸ hj)]
    exact advance_sameButTrace (emit_sameButTrace h record)
  | stop result record =>
    rw [scanStep_stop hj, scanStep_stop (hscan ▸ hj)]
    exact finish_sameButTrace (emit_sameButTrace h record) result

theorem check_sameButTrace (h : SameButTrace a b) (q : Request) : SameButTrace (a.check q) (b.check q) := by
  obtain ⟨-, hins, -, -, -⟩ := id h
  refine deliver_sameButTrace h ?_
  rw [hins]
  rfl

/-- The answers in flight, without their traces, move on alike. -/
theorem map_tick_results_congr {ps ps' : List InFlight}
    (h : (ps.map fun p => (p.due, p.output.result)) = ps'.map fun p => (p.due, p.output.result)) :
    ((ps.map InFlight.tick).map fun p => (p.due, p.output.result)) =
      (ps'.map InFlight.tick).map fun p => (p.due, p.output.result) := by
  simpa [Function.comp_def] using congrArg (List.map fun x => (x.1 - 1, x.2)) h

theorem tick_sameButTrace (h : SameButTrace a b) : SameButTrace a.tick b.tick := by
  obtain ⟨hlat, hins, hscan, -, hpipe⟩ := h
  cases ha : a.pipe with
  | nil =>
    have hb : b.pipe = [] := by simpa [ha] using hpipe.symm
    rw [tick_nil ha, tick_nil hb]
    exact ⟨hlat, hins, hscan, rfl, hpipe⟩
  | cons p ps =>
    rw [ha] at hpipe
    obtain ⟨p', ps', hb, hp, hps⟩ := List.map_eq_cons_iff.mp hpipe.symm
    obtain ⟨hdue, hresult⟩ := Prod.mk.inj hp
    by_cases hd : p.due ≤ 1
    · rw [tick_due ha hd, tick_due hb (hdue ▸ hd)]
      exact ⟨hlat, hins, hscan, congrArg some hresult.symm, map_tick_results_congr hps.symm⟩
    · rw [tick_wait ha (not_le.mp hd), tick_wait hb (hdue ▸ not_le.mp hd)]
      exact ⟨hlat, hins, hscan, rfl, map_tick_results_congr (hb ▸ hpipe)⟩

/-! ### A step of both -/

/-- When x completes so does y, with the same state but for the traces; and a refusal of x is one of y. -/
def OutcomeSameButTrace (x y : Host.Outcome State Fault Refusal) : Prop :=
  (∀ a, x = .next a → ∃ b, y = .next b ∧ SameButTrace a b) ∧ ∀ r, x = .refused r → y = .refused r

theorem outcomeSameButTrace_next (h : SameButTrace a b) : OutcomeSameButTrace (.next a) (.next b) :=
  ⟨fun _ e => ⟨b, rfl, Host.Outcome.next.inj e ▸ h⟩, fun _ e => by simp at e⟩

theorem outcomeSameButTrace_refused (r : Refusal) : OutcomeSameButTrace (.refused r) (.refused r) :=
  ⟨fun _ e => by simp at e, fun _ e => e⟩

/-- Every instruction is a scan step or a check, of the scan and the table that both hold. -/
theorem exec_sameButTrace (h : SameButTrace a b) (i : Instr) : OutcomeSameButTrace (exec i a) (exec i b) := by
  obtain ⟨-, -, hscan, -, -⟩ := id h
  rcases instr_cases i with ⟨m, p, x, rfl⟩ | ⟨op, t, rfl⟩
  · cases m with
    | off => exact outcomeSameButTrace_next (scanStep_sameButTrace h _ _)
    | tor =>
      simp only [entryInstr, exec, execTor, hscan]
      exact outcomeSameButTrace_next (scanStep_sameButTrace h _ _)
    | na4 => exact outcomeSameButTrace_next (scanStep_sameButTrace h _ _)
    | napot => exact outcomeSameButTrace_next (scanStep_sameButTrace h _ _)
  · rw [exec_requestInstr, exec_requestInstr]
    exact outcomeSameButTrace_next (check_sameButTrace h _)

theorem runFetched_sameButTrace (h : SameButTrace a b) (f : Except Refusal Instr) :
    OutcomeSameButTrace (runFetched f a) (runFetched f b) := by
  cases f with
  | ok i => exact exec_sameButTrace h i
  | error r => exact outcomeSameButTrace_refused r

/-- What is fetched is a function of the latency, the inputs and the scan. -/
theorem fetch_eq_of_sameButTrace (h : SameButTrace a b) :
    fetchEntry a = fetchEntry b ∧ fetchRequest a = fetchRequest b := by
  obtain ⟨hlat, hins, hscan, -, -⟩ := h
  have hheld : a.holdsInputs = b.holdsInputs := by
    rw [State.holdsInputs, State.holdsInputs, State.drivesSnapshot, State.drivesSnapshot, hins, hscan]
  constructor
  · rw [fetchEntry, fetchEntry, hlat, hheld, hscan]
  · rw [fetchRequest, fetchRequest, hins]

/-- States that are the same but for the traces take the same step but for the traces. -/
theorem step_sameButTrace (h : SameButTrace a b) : OutcomeSameButTrace (step a) (step b) := by
  obtain ⟨hentry, hrequest⟩ := fetch_eq_of_sameButTrace h
  obtain ⟨hlat, hins, hscan, -, -⟩ := id h
  rw [step, step, hlat, hins, hscan, hentry, hrequest]
  split
  · exact runFetched_sameButTrace h _
  split
  · exact runFetched_sameButTrace h _
  split
  · exact runFetched_sameButTrace (tick_sameButTrace h) _
  · exact outcomeSameButTrace_next (tick_sameButTrace h)

end SameButTrace

/-- Settles O28: the parameter is one of the things in which the two states of `step_sameButTrace` may differ. -/
theorem traceNeverChangesTheResult : Obligations.TraceNeverChangesTheResult := fun s v =>
  step_sameButTrace (setHasTrace_sameButTrace s v)

/-! ### The trace read back from the wires (R82) -/

/-- `tr_valid[i]` is 1 exactly when the trace has a record of entry i. -/
theorem trValid_iff_exists_record {s : State} {tr : List TraceRecord} (htr : s.traceOut = some tr) (i : Index) :
    s.trValid i = some true ↔ ∃ r ∈ tr, r.index = i := by
  simp [State.trValid, htr, recordAt, List.find?_isSome]

/-- Settles O29: the wires of an entry with a record are valid, those of one without are not, and the trace is read
back from them. -/
theorem traceWires : Obligations.TraceWires := by
  intro s T q ht hport
  have htr : s.traceOut = some (evaluate T q).2 := (traceOut_answer hport).trans (if_pos ht)
  refine ⟨fun i => ⟨trValid_iff_exists_record htr i, fun hn => ?_⟩, wireTrace_of_traceOut htr⟩
  rw [ne_eq, trValid_iff_exists_record htr] at hn
  exact trWires_of_no_record htr fun r hr hi => hn ⟨r, hr, hi⟩

end Sys2Proof.Machine

/-! PROOFS. The family `60_exceptions.md`: each result of an evaluation by its cause. -/

namespace Sys2Proof.Machine

/-! ### The verdict by the permission bit (R68) -/

section Verdict

variable {i : Index} {cfg : Byte} {op : Op}

theorem verdict_eq_granted_iff : verdict i cfg op = .granted i ↔ permitted cfg op = true := by
  cases h : permitted cfg op with
  | true => simp [verdict_of_permitted h]
  | false => simp [verdict_of_not_permitted h]

theorem verdict_eq_fault_iff : verdict i cfg op = .fault i ↔ permitted cfg op = false := by
  cases h : permitted cfg op with
  | true => simp [verdict_of_permitted h]
  | false => simp [verdict_of_not_permitted h]

end Verdict

/-! ### The cause of each result (R84) -/

section Causes

variable {T : Table} {q : Request} {i : Index}

/-- `Granted` and `Fault` are the verdict of a first stop that covers the target, and of nothing else. -/
theorem evaluate_eq_iff_verdict {r : AccessResult} (hr : r = .granted i ∨ r = .fault i) :
    (evaluate T q).1 = r ↔ FirstStop T q.t i ∧ Covers T q.t i ∧ verdict i (T.cfg i) q.op = r := by
  constructor
  · rintro rfl
    obtain ⟨h, hc⟩ := evaluate_granted_or_fault_iff.mp hr
    exact ⟨h, hc, by rw [evaluate_of_covers h hc]⟩
  · rintro ⟨h, hc, rfl⟩
    rw [evaluate_of_covers h hc]

theorem evaluate_granted_iff : (evaluate T q).1 = .granted i ↔
    FirstStop T q.t i ∧ Covers T q.t i ∧ permitted (T.cfg i) q.op = true := by
  rw [evaluate_eq_iff_verdict (.inl rfl), verdict_eq_granted_iff]

theorem evaluate_fault_iff : (evaluate T q).1 = .fault i ↔
    FirstStop T q.t i ∧ Covers T q.t i ∧ permitted (T.cfg i) q.op = false := by
  rw [evaluate_eq_iff_verdict (.inr rfl), verdict_eq_fault_iff]

/-- A scan that stops has another result: an overflow's, or a verdict. -/
theorem evaluate_faultUnmapped_iff : (evaluate T q).1 = .faultUnmapped ↔ ∀ i, ¬ Stops T q.t i := by
  rcases firstStop_cases T q.t with hn | ⟨k, h⟩
  · exact iff_of_true (by rw [evaluate_of_not_stops hn]) hn
  · refine iff_of_false ?_ fun hn => hn k h.1
    rcases h.1 with ho | hc
    · simp [evaluate_of_overflows h ho]
    · simp [evaluate_of_covers h hc]

/-- `RangeOverflow` names the first stop, which overflows: no other course of the scan has that result. -/
theorem evaluate_rangeOverflow_iff :
    (evaluate T q).1 = .rangeOverflow i ↔ FirstStop T q.t i ∧ Overflows T i := by
  constructor
  · intro hres
    rcases firstStop_cases T q.t with hn | ⟨k, h⟩
    · simp [evaluate_of_not_stops hn] at hres
    rcases h.1 with ho | hc
    · rw [evaluate_of_overflows h ho] at hres
      obtain rfl := AccessResult.rangeOverflow.inj hres
      exact ⟨h, ho⟩
    · simp [evaluate_of_covers h hc] at hres
  · rintro ⟨h, ho⟩
    rw [evaluate_of_overflows h ho]

end Causes

/-- Settles O26: one equivalence for each result; an entry does not stop the scan when it neither covers the target nor
overflows. -/
theorem outcomesByCause : Obligations.OutcomesByCause := fun _ _ =>
  ⟨fun _ => evaluate_granted_iff, fun _ => evaluate_fault_iff,
    evaluate_faultUnmapped_iff.trans (forall_congr' fun _ => not_or.trans and_comm),
    fun _ => evaluate_rangeOverflow_iff⟩

end Sys2Proof.Machine

/-! PROOFS. The family `70_reset_and_hazards.md`: the answers in flight, the stability of the inputs, the end of an
evaluation, the table of each evaluation, and reset. -/

namespace Sys2Proof.Machine

/-! ### The answers in flight (R104) -/

/-- `PipeOrdered` without its part about the scan. -/
def DueInOrder (s : State) : Prop :=
  (s.pipe.Pairwise fun p r => p.due < r.due) ∧ ∀ p ∈ s.pipe, 1 ≤ p.due ∧ p.due ≤ s.config.evalLatency

/-- The last cycle of the pipeline is free for an answer. -/
def LastCycleFree (s : State) : Prop := ∀ p ∈ s.pipe, p.due < s.config.evalLatency

section Pipe

variable {s : State}

theorem pipeOrdered_iff : PipeOrdered s ↔ DueInOrder s ∧ (s.scan.active = true → LastCycleFree s) := by
  rw [PipeOrdered, List.pairwise_map, ← and_assoc]
  rfl

theorem pipeOrdered_of_not_scanning (h : DueInOrder s) (ha : s.scan.active = false) : PipeOrdered s :=
  pipeOrdered_iff.mpr ⟨h, by simp [ha]⟩

/-- The oldest answer is the first one due. -/
theorem due_lt_of_mem_tail (h : DueInOrder s) {p : InFlight} {ps : List InFlight} (hp : s.pipe = p :: ps) :
    ∀ r ∈ ps, p.due < r.due := by
  obtain ⟨hord, -⟩ := h
  rw [hp] at hord
  exact (List.pairwise_cons.mp hord).1

/-- A tick takes out the answer that is due and moves the others one cycle nearer. -/
theorem tick_pipe (h : DueInOrder s) :
    s.tick.pipe = (s.pipe.filter fun p => decide (1 < p.due)).map InFlight.tick := by
  cases hp : s.pipe with
  | nil => simp [tick_nil hp, hp]
  | cons p ps =>
    have htail := due_lt_of_mem_tail h hp
    have hhead : 1 ≤ p.due := (h.2 p (by simp [hp])).1
    have hkept : (ps.filter fun r => decide (1 < r.due)) = ps :=
      List.filter_eq_self.mpr fun r hr => decide_eq_true (Nat.lt_of_le_of_lt hhead (htail r hr))
    by_cases hd : p.due ≤ 1
    · rw [tick_due hp hd, List.filter_cons_of_neg (by simpa using hd), hkept]
    · rw [tick_wait hp (Nat.lt_of_not_le hd), List.filter_cons_of_pos (by simpa using hd), hkept]

theorem mem_tick_pipe_iff (h : DueInOrder s) {d : Nat} (hd : 1 ≤ d) {o : Output} :
    ⟨d, o⟩ ∈ s.tick.pipe ↔ ⟨d + 1, o⟩ ∈ s.pipe := by
  rw [tick_pipe h, List.mem_map]
  constructor
  · rintro ⟨⟨e, o'⟩, hp, htick⟩
    obtain ⟨hp, he⟩ := List.mem_filter.mp hp
    simp only [decide_eq_true_eq] at he
    simp only [InFlight.tick, InFlight.mk.injEq] at htick
    obtain ⟨hed, rfl⟩ := htick
    rwa [show d + 1 = e by omega]
  · intro hp
    exact ⟨⟨d + 1, o⟩, List.mem_filter.mpr ⟨hp, decide_eq_true (by show 1 < d + 1; omega)⟩, rfl⟩

/-- After a tick the outputs hold the answer that was due in one cycle, if there was one. -/
theorem tick_out_iff (h : DueInOrder s) {o : Output} : s.tick.out = some o ↔ ⟨1, o⟩ ∈ s.pipe := by
  cases hp : s.pipe with
  | nil => simp [tick_nil hp]
  | cons p ps =>
    have htail := due_lt_of_mem_tail h hp
    have hhead : 1 ≤ p.due := (h.2 p (by simp [hp])).1
    have hnot : ⟨1, o⟩ ∉ ps := fun hm => absurd (htail _ hm) (Nat.not_lt.mpr hhead)
    by_cases hd : p.due ≤ 1
    · have hp1 : p = ⟨1, p.output⟩ := by rw [← Nat.le_antisymm hd hhead]
      rw [tick_due hp hd, hp1]
      simp [hnot, eq_comm]
    · have hne : (⟨1, o⟩ : InFlight) ≠ p := fun e => hd (e ▸ le_refl 1)
      rw [tick_wait hp (Nat.lt_of_not_le hd)]
      simp [hnot, hne]

theorem tick_keeps_dueInOrder (h : DueInOrder s) : DueInOrder s.tick := by
  obtain ⟨hord, hdue⟩ := h
  refine ⟨?_, fun p hp => ?_⟩
  · rw [tick_pipe ⟨hord, hdue⟩, List.pairwise_map]
    refine (hord.filter _).imp_of_mem fun hp _ hlt => ?_
    have := of_decide_eq_true (List.mem_filter.mp hp).2
    simp only [InFlight.tick_due_eq]
    omega
  · rw [tick_pipe ⟨hord, hdue⟩] at hp
    obtain ⟨r, hr, rfl⟩ := List.mem_map.mp hp
    obtain ⟨hr, hlt⟩ := List.mem_filter.mp hr
    have := of_decide_eq_true hlt
    have := hdue r hr
    simp only [InFlight.tick_due_eq, tick_config]
    omega

/-- A tick frees the last cycle of the pipeline. -/
theorem tick_lastCycleFree (h : DueInOrder s) : LastCycleFree s.tick := by
  rintro ⟨d, o⟩ hp
  have hd : 1 ≤ d := ((tick_keeps_dueInOrder h).2 _ hp).1
  have := (h.2 _ ((mem_tick_pipe_iff h hd).mp hp)).2
  rwa [tick_config]

/-- An answer delivered into a free last cycle comes after all others. -/
theorem deliver_keeps_dueInOrder (h : DueInOrder s) (o : Output)
    (hfree : s.config.evalLatency ≠ 0 → LastCycleFree s) : DueInOrder (s.deliver o) := by
  obtain ⟨hord, hdue⟩ := h
  by_cases h0 : s.config.evalLatency = 0
  · rw [deliver_now o h0]
    exact ⟨hord, hdue⟩
  · rw [deliver_later o h0]
    refine ⟨List.pairwise_append.mpr ⟨hord, by simp, fun p hp r hr => ?_⟩, fun p hp => ?_⟩
    · obtain rfl := List.mem_singleton.mp hr
      exact hfree h0 p hp
    · rcases List.mem_append.mp hp with hp | hp
      · exact hdue p hp
      · obtain rfl := List.mem_singleton.mp hp
        exact ⟨Nat.one_le_iff_ne_zero.mpr h0, le_refl _⟩

theorem tick_keeps_pipeOrdered (h : DueInOrder s) (ha : s.scan.active = false) : PipeOrdered s.tick :=
  pipeOrdered_of_not_scanning (tick_keeps_dueInOrder h) (by rwa [tick_scan])

theorem check_keeps_pipeOrdered (h : DueInOrder s) (ha : s.scan.active = false)
    (hfree : s.config.evalLatency ≠ 0 → LastCycleFree s) (q : Request) : PipeOrdered (s.check q) :=
  pipeOrdered_of_not_scanning (deliver_keeps_dueInOrder h _ hfree) (by rwa [check_scan])

/-- A scan step delivers the answer into the cycle kept free for it, or leaves the answers in flight. -/
theorem scanStep_keeps_pipeOrdered (h : DueInOrder s) (hfree : LastCycleFree s) :
    PipeOrdered (s.scanStep (s.scan.table.cfg s.scan.index) (resolve s.scan.table s.scan.index)) := by
  rcases scanStep_snapshot s with hend | ⟨hi, -, hpass⟩
  · rw [hend]
    exact pipeOrdered_of_not_scanning (deliver_keeps_dueInOrder h _ fun _ => hfree) rfl
  · rw [hpass]
    exact pipeOrdered_iff.mpr ⟨h, fun _ => hfree⟩

end Pipe

/-- Settles O43: each of the four ways a step completes keeps the invariant; an answer is delivered only into a free
last cycle, kept free during a scan and freed by the tick at a clock edge. -/
theorem stepKeepsPipeOrdered : Obligations.StepKeepsPipeOrdered := by
  intro s s' hs h
  obtain ⟨hdue, hfree⟩ := pipeOrdered_iff.mp hs
  rcases step_cases h with ⟨ha, -, rfl⟩ | ⟨ha, h0, -, op, -, rfl⟩ | ⟨ha, -, -, -, op, -, rfl⟩ | ⟨ha, -, -, rfl⟩
  · exact scanStep_keeps_pipeOrdered hdue (hfree ha)
  · exact check_keeps_pipeOrdered hdue ha (absurd h0) _
  · exact check_keeps_pipeOrdered (tick_keeps_dueInOrder hdue) (by rwa [tick_scan])
      (fun _ => tick_lastCycleFree hdue) _
  · exact tick_keeps_pipeOrdered hdue ha

/-! ### Clock edges under a host (R100, R104) -/

section ClockEdge

variable {s a s' : State} {ins : Inputs}

/-- The two ways a clock edge completes: without a request the answers in flight move on, and with one the answer to it
joins them, due in L cycles. -/
theorem clockEdge_cases (ha : s.scan.active = false) (h0 : s.config.evalLatency ≠ 0)
    (h : step (s.present ins) = .next a) :
    (ins.reqValid = false ∧ a = s.tick.present ins) ∨
    (ins.reqValid = true ∧ ∃ op, Op.ofCode ins.reqOp = some op ∧
      a = { s.tick.present ins with
        pipe := s.tick.pipe ++ [⟨s.config.evalLatency, answer s.config ins.table ⟨ins.reqAddr, op⟩⟩] }) := by
  rcases step_cases h with ⟨ha', -⟩ | ⟨-, h0', -⟩ | ⟨-, -, hv, -, op, hop, rfl⟩ | ⟨-, -, hv, rfl⟩
  · simp [ha] at ha'
  · exact absurd h0' h0
  · refine .inr ⟨hv, op, hop, ?_⟩
    rw [State.check, present_tick, deliver_later _ (by simpa using h0)]
    simp
  · exact .inl ⟨hv, present_tick s ins⟩

/-- A clock edge shows what the tick puts on the outputs, starts no scan, and adds at most one answer, due in L
cycles. -/
theorem clockEdge_frame (ha : s.scan.active = false) (h0 : s.config.evalLatency ≠ 0)
    (h : step (s.present ins) = .next a) :
    a.config = s.config ∧ a.scan.active = false ∧ a.out = s.tick.out ∧
    ∃ new, a.pipe = s.tick.pipe ++ new ∧ new.length ≤ 1 ∧ ∀ p ∈ new, p.due = s.config.evalLatency := by
  rcases clockEdge_cases ha h0 h with ⟨-, rfl⟩ | ⟨-, op, -, rfl⟩
  · exact ⟨by simp, by simpa using ha, rfl, [], by simp⟩
  · exact ⟨by simp, by simpa using ha, rfl, [_], rfl, by simp⟩

theorem runWith_cons_inv {rest : List Inputs} (h : runWith (ins :: rest) s = .next s') :
    ∃ a, step (s.present ins) = .next a ∧ runWith rest a = .next s' := by
  rw [runWith] at h
  split at h
  · exact ⟨_, ‹_›, h⟩
  · simp at h
  · simp at h

/-- A run keeps the parameters. -/
theorem runWith_config {l : List Inputs} (h : runWith l s = .next s') : s'.config = s.config := by
  induction l generalizing s with
  | nil =>
    obtain rfl := Host.Outcome.next.inj h
    rfl
  | cons ins l ih =>
    obtain ⟨a, hstep, hrun⟩ := runWith_cons_inv h
    exact (ih hrun).trans (stepNeverWritesTheInputs _ _ hstep).2

/-- After n clock edges, 1 ≤ n ≤ L, the outputs hold the answer that was due in n cycles, if there was one: the answers
to what is sampled meanwhile are due later. -/
theorem runWith_out_iff {l : List Inputs} (hs : PipeOrdered s) (ha : s.scan.active = false)
    (hne : l ≠ []) (hl : l.length ≤ s.config.evalLatency) (h : runWith l s = .next s') {o : Output} :
    s'.out = some o ↔ ⟨l.length, o⟩ ∈ s.pipe := by
  induction l generalizing s with
  | nil => exact absurd rfl hne
  | cons ins l ih =>
    obtain ⟨a, hstep, hrun⟩ := runWith_cons_inv h
    have hdue := (pipeOrdered_iff.mp hs).1
    have hlen : l.length < s.config.evalLatency := hl
    obtain ⟨hconfig, hscan, hout, new, hpipe, -, hnew⟩ := clockEdge_frame ha (by omega) hstep
    cases l with
    | nil =>
      obtain rfl := Host.Outcome.next.inj hrun
      rw [hout, tick_out_iff hdue]
      rfl
    | cons ins' l =>
      have hnot : ⟨(ins' :: l).length, o⟩ ∉ new := fun hm => Nat.ne_of_lt hlen (hnew _ hm)
      have hord : PipeOrdered a := stepKeepsPipeOrdered (s.present ins) a hs hstep
      calc s'.out = some o
          ↔ ⟨(ins' :: l).length, o⟩ ∈ a.pipe := ih hord hscan (by simp) (by rw [hconfig]; omega) hrun
        _ ↔ ⟨(ins' :: l).length, o⟩ ∈ s.tick.pipe := by simp only [hpipe, List.mem_append, hnot, or_false]
        _ ↔ ⟨(ins :: ins' :: l).length, o⟩ ∈ s.pipe := mem_tick_pipe_iff hdue (by simp)

/-- No answer moved by a tick is due in as many as L cycles. -/
theorem not_mem_tick_pipe (h : DueInOrder s) (o : Output) : ⟨s.config.evalLatency, o⟩ ∉ s.tick.pipe := by
  intro hm
  simpa using tick_lastCycleFree h _ hm

end ClockEdge

/-- Settles O48: the sample's answer joins those in flight due in L cycles, and is alone there; L edges later it is what
the outputs hold. -/
theorem answerAfterLatency : Obligations.AnswerAfterLatency := by
  intro s s' ins later hs ha hlen h0 hrun
  obtain ⟨a, hstep, hlater⟩ := runWith_cons_inv hrun
  have hdue := (pipeOrdered_iff.mp hs).1
  have hconfig : s'.config = s.config := runWith_config hrun
  have hL : s'.config.evalLatency ≠ 0 := by rwa [hconfig]
  obtain ⟨haconfig, hscan, -⟩ := clockEdge_frame ha h0 hstep
  have hout : ∀ o, s'.out = some o ↔ ⟨s.config.evalLatency, o⟩ ∈ a.pipe := fun o =>
    hlen ▸ runWith_out_iff (stepKeepsPipeOrdered (s.present ins) a hs hstep) hscan
      (List.ne_nil_of_length_pos (by omega)) (by rw [haconfig, hlen]) hlater
  rcases clockEdge_cases ha h0 hstep with ⟨hv, rfl⟩ | ⟨hv, op, hop, rfl⟩
  · have hnone : s'.out = none := Option.eq_none_iff_forall_ne_some.mpr fun o ho =>
      not_mem_tick_pipe hdue o ((hout o).mp ho)
    refine ⟨fun _ hv' => by simp [hv] at hv', fun _ => ⟨hnone, ?_, ?_⟩⟩
    · rw [resValid_later hL, hnone, Option.isSome_none]
    · exact wiresSilent_of_none (by rw [portOut_later hL, hnone])
  · have hsome : s'.out = some (answer s.config ins.table ⟨ins.reqAddr, op⟩) := (hout _).mpr (by simp)
    refine ⟨fun op' _ hop' => ?_, fun hv' => by simp [hv] at hv'⟩
    obtain rfl := Option.some.inj (hop.symm.trans hop')
    refine ⟨hsome, ?_, hconfig, ?_⟩
    · rw [resValid_later hL, hsome, Option.isSome_some]
    · exact wiresShow_of_portOut (by rw [portOut_later hL, hsome, hconfig])

/-! ### Stability of the inputs (R100) -/

theorem fetchRequest_unstable {s : State} (h : s.inputs.stable = false) : fetchRequest s = .error .inputsChanged := by
  simp [fetchRequest, h]

/-- A step that owes stable inputs, and does not have them, is refused. -/
theorem step_inputsChanged {s : State} (howes : OwesStability s) (hheld : ¬ InputsHeld s) :
    step s = .refused .inputsChanged := by
  rcases howes with hs | ⟨ha, h0⟩
  · have hst : s.inputs.stable = false := by
      rw [← Bool.not_eq_true, ← holdsInputs_idle hs.1, holdsInputs_iff]
      exact hheld
    obtain ⟨u, hu⟩ := step_of_samples hs
    rw [hu, fetchRequest_unstable hst, runFetched]
  · rw [step, if_pos ha, fetchEntry_refused h0 hheld, runFetched]

/-- At latency > 0 a scan step answers the same whatever the host drives. -/
theorem step_present_scanning {s s' : State} {ins : Inputs} (ha : s.scan.active = true)
    (h0 : s.config.evalLatency ≠ 0) (h : step s = .next s') : step (s.present ins) = .next (s'.present ins) := by
  rw [step_scanning ha fun h => absurd h h0] at h
  obtain rfl := Host.Outcome.next.inj h
  rw [step_scanning (s := s.present ins) ha fun h => absurd h h0]
  exact congrArg _ (present_scanStep s ins _ _)

/-- Settles O40: unstable inputs are refused where stability is owed, which at latency 0 covers inputs that are not the
snapshot's; a scan at latency L > 0 reads its snapshot alone; and a clock edge moves the answers in flight as a tick. -/
theorem inputStability : Obligations.InputStability := by
  refine ⟨fun _ => step_inputsChanged, fun s ins ha h0 hchanged => ?_, fun _ _ _ => step_present_scanning,
    fun s a ins ha h0 hstep => ?_⟩
  · refine step_inputsChanged (.inr ⟨ha, h0⟩) fun ⟨hst, hsame⟩ => ?_
    obtain ⟨htable, haddr, hop⟩ := hsame ha
    rcases hchanged with h | h | h | h
    · exact Bool.false_ne_true (h.symm.trans hst)
    · exact h htable
    · exact h haddr
    · exact h hop
  · obtain ⟨-, -, hout, new, hpipe, hlen, -⟩ := clockEdge_frame ha h0 hstep
    exact ⟨hout, new, hpipe, hlen⟩

/-! ### The end of an evaluation (R103) -/

/-- Settles O41: the run of scan steps concludes, which leaves no scan. -/
theorem scanTerminates : Obligations.ScanTerminates := by
  intro s ha hheld
  obtain ⟨n, -, hn, hrun⟩ := run_scanning s ha hheld
  exact ⟨n, s.conclude s.scan.outcome, hn, hrun, rfl⟩

/-! ### Each evaluation's own table (R101) -/

/-- At latency 0 a step between evaluations puts the answer to the inputs presented on the outputs, and keeps the
parameters and the scan. -/
theorem step_answers_now {s : State} {ins : Inputs} {op : Op} (ha : s.scan.active = false)
    (h0 : s.config.evalLatency = 0) (hst : ins.stable = true) (hop : Op.ofCode ins.reqOp = some op) :
    ∃ a, step (s.present ins) = .next a ∧ a.config = s.config ∧ a.scan = s.scan ∧
      a.out = some (answer s.config ins.table ⟨ins.reqAddr, op⟩) := by
  have hstep : step (s.present ins) = .next ((s.present ins).check ⟨ins.reqAddr, op⟩) := by
    rw [step_now (s := s.present ins) ha h0, fetchRequest_of_op hst hop, runFetched, exec_requestInstr, present_inputs]
  refine ⟨_, hstep, check_config _ _, check_scan _ _, ?_⟩
  rw [State.check, deliver_now (s := s.present ins) _ h0, present_config, present_inputs]

/-- Settles O50: each of the two steps answers from the inputs presented at it, and the first keeps the parameters and
the scan. -/
theorem eachEvaluationSeesItsOwnTable : Obligations.EachEvaluationSeesItsOwnTable := by
  intro s old new op op' ha h0 hold hnew hop hop'
  obtain ⟨s₁, hfirst, hconfig, hscan, hout⟩ := step_answers_now ha h0 hold hop
  obtain ⟨s₂, hsecond, -, -, hout'⟩ :=
    step_answers_now (s := s₁) (by rwa [hscan]) (by rwa [hconfig]) hnew hop'
  refine ⟨s₁, s₂, ?_, ?_, hout, by rwa [hconfig] at hout'⟩
  · simp only [runWith, hfirst]
  · simp only [runWith, hfirst, hsecond]

/-! ### Reset (R96, R97) -/

/-- Settles O45: at reset nothing is in flight, nothing is shown, and there is no scan. -/
theorem resetMeetsTheInvariants : Obligations.ResetMeetsTheInvariants := by
  intro c ins
  have hdue : DueInOrder (State.atReset c ins) := ⟨List.Pairwise.nil, by simp⟩
  have hout : OutputsSound (State.atReset c ins) := ⟨by simp, by simp⟩
  exact ⟨pipeOrdered_of_not_scanning hdue rfl, answersSound_iff.mpr ⟨hout, scanSound_idle rfl⟩⟩

/-- Settles O46: the fields are those of `State.atReset`, and with nothing on the outputs the wires are silent. -/
theorem resetState : Obligations.ResetState := by
  refine ⟨fun c ins => ⟨rfl, rfl, rfl, rfl, rfl, fun h0 => ⟨resValid_later h0, ?_⟩⟩, rfl⟩
  exact wiresSilent_of_none (portOut_later (s := State.atReset c ins) h0)

end Sys2Proof.Machine
